-- ==== Sys2Proof/Word.lean ====
section
/-! DEFINITION. The word types of OOKMOD: the widths of spec/00_scope.md rule R6. -/

namespace Sys2Proof

/-- An 8-bit character of `BITMEM` or a byte of `OUT` (R27, R28). -/
abbrev Byte := BitVec 8

/-- A register number, 0x00 to 0x3F (R33). -/
abbrev RegNumber := BitVec 6

/-- A value that crosses the register interface: as wide as the widest register (R40: 1 to 64 bits;
DESIGN CHOICE, log 14). -/
abbrev RegValue := BitVec 64

/-- A sample count or local sample index, `W_CNT` = 45 bits (R6, R23). -/
abbrev Count := BitVec 45

end Sys2Proof
end

