-- ==== Sys2Proof/Syntax.lean ====
section
/-! DEFINITION. The instructions of OOKMOD: one constructor of `Instr` per row of spec/opcode_table.json, and the
four formats they belong to (spec/30_encoding.md R55). -/

namespace Sys2Proof

/-- The formats that decode to an instruction (R55). `PAIR`, the fifth, is data. -/
inductive Format where
  | char  -- an input character, `BITMEM[k]`
  | sym   -- a symbol of the Symbol Plan
  | seg   -- a segment descriptor
  | ctrl  -- a command written to `CTRL`
  deriving DecidableEq, Repr

/-- The Symbol Kinds (R57), in the order of their codes, which are also the indices of `PROFILE` (R18). -/
inductive SymbolKind where
  | logic0
  | logic1
  | header
  | gap
  deriving DecidableEq, Repr

/-- The instructions. -/
inductive Instr where
  /-- `BIT1`: the character '1' (R70). -/
  | bit1
  /-- `BIT0`: the character '0' (R71). -/
  | bit0
  /-- `BITX`: any other character (R72). -/
  | bitx (ch : Byte)
  /-- `L0`: the symbol Logic0 (R92). -/
  | l0
  /-- `L1`: the symbol Logic1 (R93). -/
  | l1
  /-- `HDR`: the symbol Header (R91). -/
  | hdr
  /-- `GAP`: the symbol Gap (R94). -/
  | gap
  /-- `SIL n`: `n` samples of silence (R102). -/
  | sil (n : Count)
  /-- `WAV n`: `n` samples of the carrier (R103). -/
  | wav (n : Count)
  /-- `NOP` (R130). -/
  | nop
  /-- `START` (R129). -/
  | start
  /-- `RESET` (R131). The `START` bit of the written value is kept in the term and ignored (R62). -/
  | reset (startBit : BitVec 1)
  deriving DecidableEq, Repr

/-- The format an instruction belongs to (the `format` column of spec/opcode_table.json). -/
def Instr.format : Instr → Format
  | .bit1 | .bit0 | .bitx _ => .char
  | .l0 | .l1 | .hdr | .gap => .sym
  | .sil _ | .wav _ => .seg
  | .nop | .start | .reset _ => .ctrl

end Sys2Proof
end

