-- ==== Sys2Proof/WellFormed.lean ====
section
/-! DEFINITION. Which terms of `Instr` are the decoding of some value (spec/30_encoding.md R56, R63). -/

namespace Sys2Proof

/-- `BITX` stands for a character that is neither '1' nor '0': those two are `BIT1` and `BIT0` (R56). Every other
term is well formed: each field is as wide as the encoding's field (R57, R58, R62). -/
def Instr.wf : Instr → Bool
  | .bitx ch => ch != 0x31#8 && ch != 0x30#8
  | .bit1 | .bit0 | .l0 | .l1 | .hdr | .gap | .sil _ | .wav _ | .nop | .start | .reset _ => true

end Sys2Proof
end

