-- ==== Sys2Proof/Decode.lean ====
section
/-! DEFINITION. Decoding and encoding (spec/30_encoding.md). Every value of every format decodes (R64). What can be
rejected is a byte string that is no value of the format: its reason has a name. -/

namespace Sys2Proof

/-- The length of a format in bits (R55). -/
def Format.width : Format → Nat
  | .char => 8
  | .sym => 2
  | .seg => 46
  | .ctrl => 2

/-- Format `CHAR` (R56): 0x31 first, then 0x30, and `BITX` takes what they leave (R63). -/
def decodeChar (w : BitVec 8) : Instr :=
  if w = 0x31#8 then .bit1 else if w = 0x30#8 then .bit0 else .bitx w

/-- Format `SYM` (R57). -/
def decodeSym (w : BitVec 2) : Instr :=
  if w = 0b00#2 then .l0 else if w = 0b01#2 then .l1 else if w = 0b10#2 then .hdr else .gap

/-- Format `SEG` (R58): bit 45 is `KIND`, bits 44:0 are `N`. -/
def decodeSeg (w : BitVec 46) : Instr :=
  if w.getLsbD 45 then .wav (w.extractLsb' 0 45) else .sil (w.extractLsb' 0 45)

/-- Format `CTRL` (R62, R63): bit 1 first, then bit 0, else `NOP`. -/
def decodeCtrl (w : BitVec 2) : Instr :=
  if w.getLsbD 1 then .reset (w.extractLsb' 0 1) else if w.getLsbD 0 then .start else .nop

/-- The decoder of each format (R63). -/
def decode : (f : Format) → BitVec f.width → Instr
  | .char, w => decodeChar w
  | .sym, w => decodeSym w
  | .seg, w => decodeSeg w
  | .ctrl, w => decodeCtrl w

/-- Why a byte string is no value of a format. -/
inductive DecodeReject where
  /-- The string has not the number of bytes the format fills. -/
  | wrongLength (f : Format) (found : Nat)
  /-- A bit above the format's width is set, in a format for which the spec does not say that it is ignored. -/
  | bitAboveWidth (f : Format)
  deriving DecidableEq, Repr

/-- Bytes a format fills when its bits are laid out from bit 0 of the first byte (log 7). -/
def Format.bytes (f : Format) : Nat := (f.width + 7) / 8

/-- The number whose bits 7:0 are the first byte, bits 15:8 the second, and so on (log 7). -/
def numberOfBytes : List Byte → Nat
  | [] => 0
  | b :: bs => b.toNat + 256 * numberOfBytes bs

/-- Any bytes, decoded in a format or rejected by name. In `CTRL` the bits above bit 1 are ignored (R62). -/
def decodeBytes (f : Format) (bs : List Byte) : Except DecodeReject Instr :=
  if bs.length ≠ f.bytes then .error (.wrongLength f bs.length)
  else if f ≠ .ctrl ∧ 2 ^ f.width ≤ numberOfBytes bs then .error (.bitAboveWidth f)
  else .ok (decode f (BitVec.ofNat f.width (numberOfBytes bs)))

/-- The value that encodes an instruction, from the tables of R56, R57, R58 and R62. -/
def encode : (i : Instr) → BitVec i.format.width
  | .bit1 => 0x31#8
  | .bit0 => 0x30#8
  | .bitx ch => ch
  | .l0 => 0b00#2
  | .l1 => 0b01#2
  | .hdr => 0b10#2
  | .gap => 0b11#2
  | .sil n => (0#1 ++ n : BitVec 46)
  | .wav n => (1#1 ++ n : BitVec 46)
  | .nop => 0b00#2
  | .start => 0b01#2
  | .reset b => (1#1 ++ b : BitVec 2)

/-- The format in which a word of spec/opcode_table.json is read (log 8). The formats live in different places (R55)
and the table's number alone does not say which: a word of one byte below 4 fits `SYM`, `CTRL` and `CHAR`. It is
read as `SYM`, the narrower format that stands first in the table; `BITX` has the lowest priority (R63). -/
def tableFormat (nbits w : Nat) : Option Format :=
  if nbits = 2 then (if w < 4 then some .sym else none)
  else if nbits = 8 then (if w < 4 then some .sym else if w < 256 then some .char else none)
  else if nbits = 46 ∨ nbits = 48 then (if w < 2 ^ 46 then some .seg else none)
  else none

/-- The instruction read from a word of the opcode table. -/
def decodeTableWord (nbits w : Nat) : Option Instr :=
  (tableFormat nbits w).map fun f => decode f (BitVec.ofNat f.width w)

end Sys2Proof
end

