-- ==== Sys2Proof/Config.lean ====
section
/-! DEFINITION. What is fixed for the machine (spec/00_scope.md R6), and the values the spec leaves open.
`BITMEM_DEPTH`, the one OPEN parameter, is a field of `State` that no step writes (log 1). -/

namespace Sys2Proof.Config

/-- `EDGE_US`: microseconds of the leading and of the trailing silence (R6, R19). -/
def edgeUs : Nat := 500

/-- `SAMPLE_MIN` and `SAMPLE_MAX`, the legal sample range (R6). -/
def sampleMin : Int := -90
/-- See `sampleMin`. -/
def sampleMax : Int := 90

/-- `OUT_COUNT` counts below this, `W_OUTCNT` = 64 (R22, R142 code 6). -/
def outCountLimit : Nat := 2 ^ 64

/-- FREE VALUE (log 2): the character held by entry `k` of `BITMEM` while the host has never written it.
U3 of spec/93: any value, one draw per entry. Nothing constrains it. -/
opaque unwrittenChar : Nat → Byte

/-- FREE VALUE (log 6): the unclamped sample when `SAMPLE_RATE`, `DATA_FREQ` or `NUM_PHASES` is 0. R106 states
`carrier` only for `fs, fd, P ≥ 1`. Arguments: fs, fd, P, A, i. Nothing constrains it. -/
opaque carrierUnstated : (fs fd phases amp i : Nat) → Int

end Sys2Proof.Config
end

