-- ==== Sys2Proof/Machine/State.lean ====
section
/-! DEFINITION. The state of OOKMOD (spec/10_state.md R10, R31): every register, the sequencer position, `BITMEM` and
`OUT`; and, marked as such, the model's own fields. -/

namespace Sys2Proof.Machine

/-- `STATUS.RUN` (R21). -/
inductive RunState where
  | idle
  | busy
  | done
  | fault
  deriving DecidableEq, Repr

/-- `STATUS.CAUSE` (R21, R142). Code 7 is never produced, so it has no constructor (U5). -/
inductive Cause where
  | none
  | zeroSampleRate
  | zeroDataFreq
  | zeroNumPhases
  | zeroRepeat
  | badNbits
  | tooLong
  deriving DecidableEq, Repr

/-- `PH`, the phase of the sequencer position (R24). -/
inductive Phase where
  | lead
  | header
  | block
  | trail
  deriving DecidableEq, Repr

/-- `SEG_KIND` (R23): silence or waveform. -/
inductive SegKind where
  | sil
  | wav
  deriving DecidableEq, Repr

/-- One entry of the profile bank (R18). -/
structure Profile where
  highUs    : BitVec 32
  lowUs     : BitVec 32
  highFirst : BitVec 1
  deriving DecidableEq, Repr

/-- The stored part of `PROFILE[3]` (R18): its `HIGH_US` is hard-wired to 0 and has no storage. -/
structure GapProfile where
  lowUs     : BitVec 32
  highFirst : BitVec 1
  deriving DecidableEq, Repr

/-- The configuration registers (R12 to R18). -/
structure ConfigRegs where
  sampleRate  : BitVec 32
  dataFreq    : BitVec 32
  numPhases   : BitVec 16
  repeatCount : BitVec 16
  amplitude   : BitVec 8
  nbits       : BitVec 16
  logic0      : Profile
  logic1      : Profile
  header      : Profile
  gap         : GapProfile
  deriving DecidableEq, Repr

/-- The working registers `SEG_KIND`, `SEG_N`, `I_IDX` (R23). -/
structure SegRegs where
  kind : SegKind
  n    : Count
  idx  : Count
  deriving DecidableEq, Repr

/-- The program counter: the sequencer position `(PH, REP, POS, SEG)` (R24). -/
structure SeqPos where
  ph  : Phase
  rep : BitVec 16
  pos : BitVec 16
  seg : BitVec 1
  deriving DecidableEq, Repr

/-- The operations of the host (R125, R126, R128, R132). -/
inductive HostOp where
  | regWrite (num : RegNumber) (v : RegValue)
  | regRead (num : RegNumber)
  | bitWrite (k : Nat) (ch : Byte)
  | outRead (j : Nat)
  deriving DecidableEq, Repr

/-- One turn of the agenda (log 3). -/
inductive Turn where
  /-- One step of the core (R112): one pair, or one advance. -/
  | coreStep
  /-- The instruction the core is at, whole, and the advance out of it: steps fused, as D20 allows. -/
  | coreInstr
  /-- One operation of the host. -/
  | host (op : HostOp)
  /-- The hardware reset (R155). -/
  | hardwareReset
  deriving DecidableEq, Repr

/-- What the last read returned to the host (log 5). -/
inductive Reply where
  | nothing
  | value (v : RegValue)
  | byte (b : Byte)
  | refused
  deriving DecidableEq, Repr

/-- The whole machine. -/
structure State where
  /-- Configuration registers and profile bank (R12 to R18). -/
  cfg : ConfigRegs
  /-- `STATUS.RUN` (R21). -/
  run : RunState
  /-- `STATUS.CAUSE` (R21). -/
  cause : Cause
  /-- `OUT_COUNT` (R22). -/
  outCount : BitVec 64
  /-- `OUT`, in stream order (R28, R42). -/
  out : List Byte
  /-- Working registers (R23). -/
  seg : SegRegs
  /-- Sequencer position (R24). -/
  pc : SeqPos
  /-- `BITMEM` (R27): the entries the host has written, indices strictly rising. -/
  bitmem : List Host.Cell
  /-- `BITMEM_DEPTH` (R6, D9), a parameter: no step writes it (log 1). -/
  bitmemDepth : BitVec 16
  /-- MODEL'S OWN: who moves next (log 3). Empty: the host is silent. -/
  agenda : List Turn
  /-- MODEL'S OWN: the answer to the host's last read (log 5). -/
  reply : Reply
  deriving DecidableEq, Repr

/-- The model's stops. No instruction raises one. -/
inductive Fault where
  /-- Raised by `step` when the agenda gives the core a turn and `RUN` is not `BUSY`: the core has no step there
  (R112). Safe: the machine has no such behaviour. -/
  | noEnabledStep
  deriving DecidableEq, Repr

/-- Refusals. -/
inductive Refusal where
  /-- Raised by an arm of `exec` that has no meaning yet. Every arm has its meaning, so nothing raises it. Safe. -/
  | notModelled (mnemonic : String)
  deriving DecidableEq, Repr

/-- A profile after reset (R31). -/
def Profile.reset : Profile := ⟨0, 0, 0⟩

/-- The configuration registers after reset (R31). -/
def ConfigRegs.reset : ConfigRegs where
  sampleRate := 0
  dataFreq := 0
  numPhases := 0
  repeatCount := 0
  amplitude := 0
  nbits := 0
  logic0 := .reset
  logic1 := .reset
  header := .reset
  gap := ⟨0, 0⟩

/-- The position `(LEAD, 0, 0, 0)` (R129, and R31 with `PH` = 0). -/
def SeqPos.start : SeqPos := ⟨.lead, 0, 0, 0⟩

/-- The machine at power-on (R31, R155, R156). `BITMEM` is unspecified: no entry is listed (log 2). -/
def State.reset : State where
  cfg := .reset
  run := .idle
  cause := .none
  outCount := 0
  out := []
  seg := ⟨.sil, 0, 0⟩
  pc := .start
  bitmem := []
  bitmemDepth := 4096
  agenda := []
  reply := .nothing

end Sys2Proof.Machine
end

