-- ==== Sys2Proof/Machine/Operands.lean ====
section
/-! DEFINITION. Operand forms: the bit of a character, the sample count of a duration, profiles, segments, the sample
byte and the clamp (spec/30_encoding.md, 40_symbol_planner.md, 41_timing_resolver.md, 42_waveform_synth.md). -/

namespace Sys2Proof.Machine

/-- `bit(ch)` (R8, R70 to R72): only the character '1' is 1. -/
def bitOf (ch : Byte) : BitVec 1 := if ch = 0x31#8 then 1 else 0

/-- The code of a symbol (R57), also its index in the profile bank. -/
def symbolCode : SymbolKind → BitVec 2
  | .logic0 => 0b00
  | .logic1 => 0b01
  | .header => 0b10
  | .gap => 0b11

/-- The symbol of an input bit: 0 is Logic0, 1 is Logic1 (R74). -/
def symbolOfBit (b : BitVec 1) : SymbolKind := if b = 1 then .logic1 else .logic0

/-- `PROFILE[c]` as the core reads it: the Gap's `HIGH_US` is the constant 0 (R18, R94). -/
def profileOf (cfg : ConfigRegs) : SymbolKind → Profile
  | .logic0 => cfg.logic0
  | .logic1 => cfg.logic1
  | .header => cfg.header
  | .gap => ⟨0, cfg.gap.lowUs, cfg.gap.highFirst⟩

/-- `nsamp(fs, d_us)`, the sample count of a duration in microseconds, in the integer form of R86. -/
def nsamp (fs us : Nat) : Nat := (fs * us + 500000) / 1000000

/-- A segment descriptor (R58). -/
structure Segment where
  kind : SegKind
  n    : Count
  deriving DecidableEq, Repr

/-- `KIND` as its bit (R58). -/
def kindBit : SegKind → BitVec 1
  | .sil => 0
  | .wav => 1

/-- The 46 bits of the descriptor in the working registers, `SEG_KIND` above `SEG_N` (R58). -/
def segWord (r : SegRegs) : BitVec 46 := kindBit r.kind ++ r.n

/-- The count of a duration register as it stands in `SEG_N`; it always fits (R88). -/
def countOf (cfg : ConfigRegs) (us : Nat) : Count := BitVec.ofNat 45 (nsamp cfg.sampleRate.toNat us)

/-- The leading and the trailing silence (R111, R113). -/
def edgeSegment (cfg : ConfigRegs) : Segment := ⟨.sil, countOf cfg Config.edgeUs⟩

/-- `segment(c, SEG)`, the ordering function (R89, R90). -/
def segmentOf (cfg : ConfigRegs) (c : SymbolKind) (seg : BitVec 1) : Segment :=
  let p := profileOf cfg c
  let wav : Segment := ⟨.wav, countOf cfg p.highUs.toNat⟩
  let sil : Segment := ⟨.sil, countOf cfg p.lowUs.toNat⟩
  if p.highFirst = 1 then (if seg = 0 then wav else sil) else (if seg = 0 then sil else wav)

/-- `clamp(v)` (R8, R108), symmetric (90_conflicts.md C2). -/
def clamp (v : Int) : Int := min Config.sampleMax (max Config.sampleMin v)

/-- `enc8(s)`, the two's complement byte of a sample (R60). -/
def enc8 (s : Int) : Byte := BitVec.ofInt 8 s

/-- One sample instant: the I byte and the equal Q byte (R61, R109). -/
def pairBytes (s : Int) : List Byte := [enc8 s, enc8 s]

end Sys2Proof.Machine
end

