-- ==== Sys2Proof/Machine/SineSearch.lean ====
section
/-! DEFINITION. The exact comparison the sample function rests on (spec/42_waveform_synth.md R107): is the cosine of a
rational number of turns above a rational threshold? It works in integers only. The two numbers are doubled as angles
together, `cos 2x = 2 cos² x - 1`, the angle exactly and the threshold inside an enclosure `[lo, hi]` in units of
`1/one`, until they lie on opposite sides of a quarter turn. The theorems of this file show that a precise enough
enclosure always settles it (Niven's theorem, spec/93 G3), so that the count below is total. -/

namespace Sys2Proof.Machine

/-- Lower end of the enclosure of `2c² - 1`, from an end `a` of the enclosure of `c`. -/
def doubleLow (one a : Int) : Int := 2 * a * a / one - one

/-- Upper end of the enclosure of `2c² - 1`, from an end `b` of the enclosure of `c`. -/
def doubleHigh (one b : Int) : Int := -(-(2 * b * b) / one) - one

/-- Is `cos (2π p/q)`, with `p/q` at most half a turn, above a `c` in `[lo, hi]/one` that it does not equal? `none`
when `fuel` doublings of this enclosure do not settle it. -/
def cosAbove (one : Int) (q : Nat) : (fuel p : Nat) → (lo hi : Int) → Option Bool
  | 0, _, _, _ => none
  | fuel + 1, p, lo, hi =>
    if 4 * p = q then
      if hi ≤ 0 then some true else if 0 ≤ lo then some false else none
    else if 4 * p < q then
      if hi ≤ 0 then some true
      else if 0 ≤ lo then cosAbove one q fuel (2 * p) (doubleLow one lo) (doubleHigh one hi)
      else none
    else
      if 0 ≤ lo then some false
      else if hi ≤ 0 then
        (cosAbove one q fuel (q - 2 * p) (doubleLow one hi) (doubleHigh one lo)).map not
      else none

/-- `m` plus how many of the next `left` thresholds `(2m+1)/amp`, `(2m+3)/amp`, … lie below `cos (2π p/q)`, tried in
that order with `n` bits of precision: the rounding of `cos (2π p/q) * amp / 2` when there is no tie (R105). -/
def countLevels (n p q amp : Nat) : (left m : Nat) → Option Nat
  | 0, m => some m
  | left + 1, m =>
    let one : Int := Int.ofNat (2 ^ n)
    let lo : Int := (2 * m + 1) * one / amp
    match cosAbove one q n p lo (lo + 1) with
    | none => none
    | some false => some m
    | some true => countLevels n p q amp left (m + 1)

/-- `p/q` is at most a quarter turn and none of the angles whose cosine is 1, 1/2 or 0 (the table of R107). -/
abbrev OffTable (p q : Nat) : Prop := 0 < q ∧ 4 * p ≤ q ∧ p ≠ 0 ∧ 6 * p ≠ q ∧ 4 * p ≠ q

/-! ### Some precision settles it -/

open Real

theorem doubleLow_le (one a : Int) (h : 0 < one) :
    (doubleLow one a : ℝ) ≤ 2 * a * a / one - one := by
  have h1 : ((2 * a * a / one : ℤ) : ℝ) ≤ (2 * a * a : ℝ) / one := by
    have := Int.ediv_mul_le (2*a*a) (ne_of_gt h)
    rw [le_div_iff₀ (by exact_mod_cast h)]
    exact_mod_cast this
  unfold doubleLow; push_cast at *; linarith

theorem lt_doubleLow (one a : Int) (h : 0 < one) :
    2 * a * a / one - one - 1 < (doubleLow one a : ℝ) := by
  have h1 : (2 * a * a : ℝ) / one < ((2 * a * a / one : ℤ) : ℝ) + 1 := by
    have := Int.lt_ediv_add_one_mul_self (2*a*a) h
    rw [div_lt_iff₀ (by exact_mod_cast h)]
    exact_mod_cast this
  unfold doubleLow; push_cast at *; linarith

theorem le_doubleHigh (one b : Int) (h : 0 < one) :
    2 * b * b / one - one ≤ (doubleHigh one b : ℝ) := by
  have h1 : ((-(2 * b * b) / one : ℤ) : ℝ) ≤ (-(2 * b * b) : ℝ) / one := by
    have := Int.ediv_mul_le (-(2*b*b)) (ne_of_gt h)
    rw [le_div_iff₀ (by exact_mod_cast h)]
    exact_mod_cast this
  unfold doubleHigh; push_cast at *; rw [neg_div] at h1; linarith

theorem doubleHigh_lt (one b : Int) (h : 0 < one) :
    (doubleHigh one b : ℝ) < 2 * b * b / one - one + 1 := by
  have h1 : (-(2 * b * b) : ℝ) / one < ((-(2 * b * b) / one : ℤ) : ℝ) + 1 := by
    have := Int.lt_ediv_add_one_mul_self (-(2*b*b)) h
    rw [div_lt_iff₀ (by exact_mod_cast h)]
    exact_mod_cast this
  unfold doubleHigh; push_cast at *; rw [neg_div] at h1; linarith

/-- enclosure through one doubling -/
theorem double_encloses {one : Int} (h : 0 < one) {lo hi : Int} {c : ℝ} (h0 : 0 ≤ lo)
    (hl : (lo : ℝ) ≤ c * one) (hh : c * one ≤ hi) :
    (doubleLow one lo : ℝ) ≤ (2 * c ^ 2 - 1) * one ∧
    (2 * c ^ 2 - 1) * one ≤ (doubleHigh one hi : ℝ) := by
  have hone : (0 : ℝ) < one := by exact_mod_cast h
  have h0' : (0 : ℝ) ≤ lo := by exact_mod_cast h0
  have a1 : (lo : ℝ) * lo ≤ (c * one) * (c * one) := by nlinarith
  have a2 : (c * one) * (c * one) ≤ (hi : ℝ) * hi := by nlinarith
  have e : (2 * c ^ 2 - 1) * one = 2 * ((c * one) * (c * one)) / one - one := by
    field_simp
  constructor
  · refine (doubleLow_le one lo h).trans ?_
    rw [e]; gcongr ?_ / _ - _; linarith
  · refine le_trans ?_ (le_doubleHigh one hi h)
    rw [e]; gcongr ?_ / _ - _; linarith

theorem double_encloses_neg {one : Int} (h : 0 < one) {lo hi : Int} {c : ℝ} (h0 : hi ≤ 0)
    (hl : (lo : ℝ) ≤ c * one) (hh : c * one ≤ hi) :
    (doubleLow one hi : ℝ) ≤ (2 * c ^ 2 - 1) * one ∧
    (2 * c ^ 2 - 1) * one ≤ (doubleHigh one lo : ℝ) := by
  have := double_encloses (lo := -hi) (hi := -lo) (c := -c) h (by omega)
    (by push_cast; linarith) (by push_cast; linarith)
  simpa [doubleLow, doubleHigh] using this

/-- the angle 2π p/q, in radians -/
noncomputable def turnAngle (p q : ℕ) : ℝ := 2 * π * (p / q)

theorem cos_turnAngle_double (p q : ℕ) : cos (turnAngle (2 * p) q) = 2 * cos (turnAngle p q) ^ 2 - 1 := by
  rw [← cos_two_mul]; unfold turnAngle; push_cast; ring_nf

theorem cos_turnAngle_fold (p q : ℕ) (hq : 0 < q) (h : 2 * p ≤ q) :
    cos (turnAngle (q - 2 * p) q) = 2 * cos (turnAngle p q) ^ 2 - 1 := by
  rw [← cos_two_mul, ← cos_two_pi_sub]; unfold turnAngle; push_cast [h]
  congr 1
  have : (q : ℝ) ≠ 0 := by positivity
  field_simp; ring

theorem turnAngle_pos_of_lt {p q : ℕ} (h : 4 * p < q) : 0 < cos (turnAngle p q) := by
  have hq : (0 : ℝ) < q := by exact_mod_cast (by omega : 0 < q)
  apply cos_pos_of_mem_Ioo
  have h' : (4 * p : ℝ) < q := by exact_mod_cast h
  have : (p : ℝ) / q < 1 / 4 := by rw [div_lt_iff₀ hq]; linarith
  have h0 : 0 ≤ (p : ℝ) / q := by positivity
  constructor <;> unfold turnAngle <;> nlinarith [pi_pos]

theorem turnAngle_neg_of_gt {p q : ℕ} (h : q < 4 * p) (h2 : 2 * p ≤ q) : cos (turnAngle p q) < 0 := by
  have hq : (0 : ℝ) < q := by exact_mod_cast (by omega : 0 < q)
  have h' : (q : ℝ) < 4 * p := by exact_mod_cast h
  have h2' : (2 * p : ℝ) ≤ q := by exact_mod_cast h2
  have : 1 / 4 < (p : ℝ) / q := by rw [lt_div_iff₀ hq]; linarith
  have h0 : (p : ℝ) / q ≤ 1 / 2 := by rw [div_le_iff₀ hq]; linarith
  apply cos_neg_of_pi_div_two_lt_of_lt <;> unfold turnAngle <;> nlinarith [pi_pos]

theorem turnAngle_zero_of_eq {p q : ℕ} (h : 4 * p = q) (hq : 0 < q) : cos (turnAngle p q) = 0 := by
  subst h
  have : turnAngle p (4 * p) = π / 2 := by
    have : (p : ℝ) ≠ 0 := by exact_mod_cast (by omega : p ≠ 0)
    unfold turnAngle; push_cast; field_simp; ring
  rw [this, cos_pi_div_two]

/-- width after one doubling -/
theorem double_width {one : Int} (h : 0 < one) {lo hi : Int} {ε : ℝ} (h0 : 0 ≤ lo)
    (hle : (hi : ℝ) ≤ 2 * one) (hw : (hi : ℝ) - lo ≤ ε * one) (hlh : lo ≤ hi) :
    (doubleHigh one hi : ℝ) - doubleLow one lo ≤ 8 * ε * one + 2 := by
  have hone : (0 : ℝ) < one := by exact_mod_cast h
  have h0' : (0 : ℝ) ≤ lo := by exact_mod_cast h0
  have hlh' : (lo : ℝ) ≤ hi := by exact_mod_cast hlh
  have a := lt_doubleLow one lo h
  have b := doubleHigh_lt one hi h
  have key : (2 * hi * hi : ℝ) / one - 2 * lo * lo / one ≤ 8 * ε * one := by
    rw [← sub_div, div_le_iff₀ hone]
    have : (2 * hi * hi - 2 * lo * lo : ℝ) = 2 * ((hi - lo) * (hi + lo)) := by ring
    rw [this]
    have e1 : ((hi : ℝ) - lo) * (hi + lo) ≤ (ε * one) * (4 * one) := by
      apply mul_le_mul hw (by linarith) (by linarith)
      linarith
    nlinarith
  linarith

theorem rat_double_ne_zero (c : ℚ) : (2 * c ^ 2 - 1 : ℚ) ≠ 0 := by
  intro h
  have h1 : ((2 * c : ℚ) : ℝ) ^ 2 = 2 := by
    have : (2 * c) ^ 2 = (2 : ℚ) := by linarith
    exact_mod_cast this
  have h2 : |((2 * c : ℚ) : ℝ)| = √2 := by rw [← h1, sqrt_sq_eq_abs]
  apply irrational_sqrt_two
  exact ⟨|2 * c|, by rw [← h2]; push_cast; rfl⟩

/-- once the enclosure is narrow and precise enough, `cosAbove` answers -/
theorem cosAbove_settles {q : ℕ} (hq : 0 < q) :
    ∀ (K p : ℕ) (c : ℚ) (τ : ℝ), 2 * p ≤ q → 0 ≤ τ → τ ≤ 1 / 2 → cos (2 * π * τ) = c → c ≠ 0 →
      1 / 2 < 2 ^ K * |(p : ℝ) / q - τ| →
      ∃ ε : ℝ, 0 < ε ∧ ∃ N : ℕ, ∀ n ≥ N, ∀ fuel ≥ K + 1, ∀ lo hi : Int,
        (lo : ℝ) ≤ c * ((2 : ℝ) ^ n) → c * ((2 : ℝ) ^ n) ≤ hi → (hi : ℝ) - lo ≤ ε * 2 ^ n →
        (cosAbove (Int.ofNat (2 ^ n)) q fuel p lo hi).isSome := by
  have hq' : (0 : ℝ) < q := by exact_mod_cast hq
  intro K
  induction K with
  | zero =>
    intro p c τ hp h0 h1 _ _ h
    exfalso
    have hp' : (2 * p : ℝ) ≤ q := by exact_mod_cast hp
    have a : (p : ℝ) / q ≤ 1 / 2 := by rw [div_le_iff₀ hq']; linarith
    have b : 0 ≤ (p : ℝ) / q := by positivity
    have : |(p : ℝ) / q - τ| ≤ 1 / 2 := by rw [abs_le]; constructor <;> linarith
    rw [pow_zero, one_mul] at h
    linarith
  | succ K ih =>
    intro p c τ hp h0 h1 hc hc0 h
    have hcR : (c : ℝ) ≠ 0 := by exact_mod_cast hc0
    have habs : 0 < |(c : ℝ)| := abs_pos.2 hcR
    have hc1 : (c : ℝ) ≤ 1 := hc ▸ cos_le_one _
    have hcm : -1 ≤ (c : ℝ) := hc ▸ neg_one_le_cos _
    -- the sign of the enclosure is that of c
    have sgn : ∀ (n : ℕ) (lo hi : Int) (ε : ℝ), ε ≤ |(c : ℝ)| / 2 →
        (lo : ℝ) ≤ c * ((2 : ℝ) ^ n) → c * ((2 : ℝ) ^ n) ≤ hi → (hi : ℝ) - lo ≤ ε * 2 ^ n →
        (0 < (c : ℝ) → 0 ≤ lo) ∧ ((c : ℝ) < 0 → hi ≤ 0) := by
      intro n lo hi ε hε hl hh hw
      have h2 : (0 : ℝ) < 2 ^ n := by positivity
      constructor <;> intro hs
      · rw [abs_of_pos hs] at hε
        have : (0 : ℝ) ≤ lo := by nlinarith
        exact_mod_cast this
      · rw [abs_of_neg hs] at hε
        have : (hi : ℝ) ≤ 0 := by nlinarith
        exact_mod_cast this
    -- if no recursion happens, the sign suffices
    have base : (4 * p = q ∨ (4 * p < q ∧ (c : ℝ) < 0) ∨ (q < 4 * p ∧ 0 < (c : ℝ))) →
        ∃ ε : ℝ, 0 < ε ∧ ∃ N : ℕ, ∀ n ≥ N, ∀ fuel ≥ K + 1 + 1, ∀ lo hi : Int,
        (lo : ℝ) ≤ c * ((2 : ℝ) ^ n) → c * ((2 : ℝ) ^ n) ≤ hi → (hi : ℝ) - lo ≤ ε * 2 ^ n →
        (cosAbove (Int.ofNat (2 ^ n)) q fuel p lo hi).isSome := by
      intro hcase
      refine ⟨|(c : ℝ)| / 2, by positivity, 0, fun n _ fuel hf lo hi hl hh hw => ?_⟩
      obtain ⟨s1, s2⟩ := sgn n lo hi _ le_rfl hl hh hw
      obtain ⟨f, rfl⟩ : ∃ f, fuel = f + 1 := ⟨fuel - 1, by omega⟩
      rw [cosAbove]
      rcases hcase with h4 | ⟨h4, hs⟩ | ⟨h4, hs⟩
      · rw [if_pos h4]
        rcases lt_or_gt_of_ne hcR with hs | hs
        · rw [if_pos (s2 hs)]; rfl
        · split_ifs
          · rfl
          · rfl
          · exact absurd (s1 hs) ‹_›
      · rw [if_neg (by omega), if_pos h4, if_pos (s2 hs)]; rfl
      · rw [if_neg (by omega), if_neg (by omega), if_pos (s1 hs)]; rfl
    have dd : ∀ x : ℝ, |2 * x| = 2 * |x| := fun x => by rw [abs_mul]; norm_num
    rcases lt_trichotomy (4 * p) q with h4 | h4 | h4
    · rcases lt_or_gt_of_ne hcR with hs | hs
      · exact base (.inr (.inl ⟨h4, hs⟩))
      · -- both on the lap below a quarter turn
        have hτ : τ < 1 / 4 := by
          by_contra hτ
          have : cos (2 * π * τ) ≤ 0 := by
            apply cos_nonpos_of_pi_div_two_le_of_le <;> nlinarith [pi_pos]
          linarith
        obtain ⟨ε', hε', N, hN⟩ := ih (2 * p) (2 * c ^ 2 - 1) (2 * τ) (by omega) (by linarith)
          (by linarith) (by
            rw [show 2 * π * (2 * τ) = 2 * (2 * π * τ) by ring, cos_two_mul, hc]; push_cast; ring)
          (rat_double_ne_zero c) (by
            have : ((2 * p : ℕ) : ℝ) / q - 2 * τ = 2 * (p / q - τ) := by push_cast; ring
            rw [this, dd]; rw [pow_succ] at h; linarith)
        obtain ⟨M, hM⟩ := pow_unbounded_of_one_lt (4 / ε') (by norm_num : (1 : ℝ) < 2)
        refine ⟨min (|(c : ℝ)| / 2) (min (ε' / 16) 1), by positivity, max N M,
          fun n hn fuel hf lo hi hl hh hw => ?_⟩
        have hnN : n ≥ N := le_trans (le_max_left _ _) hn
        have hnM : (2 : ℝ) ^ M ≤ 2 ^ n :=
          pow_le_pow_right₀ (by norm_num) (le_trans (le_max_right _ _) hn)
        have h2 : (0 : ℝ) < 2 ^ n := by positivity
        obtain ⟨s1, s2⟩ := sgn n lo hi _ (min_le_left _ _) hl hh hw
        obtain ⟨f, rfl⟩ : ∃ f, fuel = f + 1 := ⟨fuel - 1, by omega⟩
        rw [cosAbove, if_neg (by omega), if_pos h4]
        split_ifs with g1 g2
        · rfl
        · have hone : (0 : Int) < Int.ofNat (2 ^ n) := Int.natCast_pos.2 (by positivity)
          have hcast : ((Int.ofNat (2 ^ n) : ℤ) : ℝ) = 2 ^ n := by simp
          have hw1 : (hi : ℝ) - lo ≤ 1 * 2 ^ n := hw.trans (by
            gcongr; exact (min_le_right _ _).trans (min_le_right _ _))
          have hw2 : (hi : ℝ) - lo ≤ (ε' / 16) * 2 ^ n := hw.trans (by
            gcongr; exact (min_le_right _ _).trans (min_le_left _ _))
          obtain ⟨g3, g4⟩ := double_encloses (lo := lo) (hi := hi) (c := c) hone g2 (by rw [hcast]; exact hl)
            (by rw [hcast]; exact hh)
          have hlh : lo ≤ hi := by have := hl.trans hh; exact_mod_cast this
          have w := double_width (one := Int.ofNat (2 ^ n)) (lo := lo) (hi := hi) (ε := ε' / 16)
            hone g2 (by rw [hcast]; nlinarith) (by rw [hcast]; exact hw2) hlh
          rw [hcast] at g3 g4 w
          apply hN n hnN f (by omega) _ _ (by push_cast; exact g3) (by push_cast; exact g4)
          have : (2 : ℝ) ≤ ε' / 2 * 2 ^ n := by
            have h4' : 4 / ε' < 2 ^ n := lt_of_lt_of_le hM hnM
            rw [div_lt_iff₀ hε'] at h4'; nlinarith
          refine w.trans ?_
          nlinarith
        · exact absurd (s1 hs) g2
    · exact base (.inl h4)
    · rcases lt_or_gt_of_ne hcR with hs | hs
      · have hτ : 1 / 4 < τ := by
          by_contra hτ
          have : 0 ≤ cos (2 * π * τ) := by
            apply cos_nonneg_of_mem_Icc; constructor <;> nlinarith [pi_pos]
          linarith
        obtain ⟨ε', hε', N, hN⟩ := ih (q - 2 * p) (2 * c ^ 2 - 1) (1 - 2 * τ) (by omega)
          (by linarith) (by linarith) (by
            rw [show 2 * π * (1 - 2 * τ) = 2 * π - 2 * (2 * π * τ) by ring, cos_two_pi_sub,
              cos_two_mul, hc]; push_cast; ring)
          (rat_double_ne_zero c) (by
            have : ((q - 2 * p : ℕ) : ℝ) / q - (1 - 2 * τ) = -(2 * (p / q - τ)) := by
              push_cast [hp]; field_simp; ring
            rw [this, abs_neg, dd]; rw [pow_succ] at h; linarith)
        obtain ⟨M, hM⟩ := pow_unbounded_of_one_lt (4 / ε') (by norm_num : (1 : ℝ) < 2)
        refine ⟨min (|(c : ℝ)| / 2) (min (ε' / 16) 1), by positivity, max N M,
          fun n hn fuel hf lo hi hl hh hw => ?_⟩
        have hnN : n ≥ N := le_trans (le_max_left _ _) hn
        have hnM : (2 : ℝ) ^ M ≤ 2 ^ n :=
          pow_le_pow_right₀ (by norm_num) (le_trans (le_max_right _ _) hn)
        have h2 : (0 : ℝ) < 2 ^ n := by positivity
        obtain ⟨s1, s2⟩ := sgn n lo hi _ (min_le_left _ _) hl hh hw
        obtain ⟨f, rfl⟩ : ∃ f, fuel = f + 1 := ⟨fuel - 1, by omega⟩
        rw [cosAbove, if_neg (by omega), if_neg (by omega)]
        split_ifs with g1 g2
        · rfl
        · have hone : (0 : Int) < Int.ofNat (2 ^ n) := Int.natCast_pos.2 (by positivity)
          have hcast : ((Int.ofNat (2 ^ n) : ℤ) : ℝ) = 2 ^ n := by simp
          have hw1 : (hi : ℝ) - lo ≤ 1 * 2 ^ n := hw.trans (by
            gcongr; exact (min_le_right _ _).trans (min_le_right _ _))
          have hw2 : (hi : ℝ) - lo ≤ (ε' / 16) * 2 ^ n := hw.trans (by
            gcongr; exact (min_le_right _ _).trans (min_le_left _ _))
          obtain ⟨g3, g4⟩ := double_encloses_neg (lo := lo) (hi := hi) (c := c) hone g2 (by rw [hcast]; exact hl)
            (by rw [hcast]; exact hh)
          have hlh : lo ≤ hi := by have := hl.trans hh; exact_mod_cast this
          have w := double_width (one := Int.ofNat (2 ^ n)) (lo := -hi) (hi := -lo) (ε := ε' / 16)
            hone (by omega) (by rw [hcast]; push_cast; nlinarith)
            (by rw [hcast]; push_cast; linarith) (by omega)
          have e1 : doubleHigh (Int.ofNat (2 ^ n)) (-lo) = doubleHigh (Int.ofNat (2 ^ n)) lo := by
            simp [doubleHigh]
          have e2 : doubleLow (Int.ofNat (2 ^ n)) (-hi) = doubleLow (Int.ofNat (2 ^ n)) hi := by
            simp [doubleLow]
          rw [e1, e2, hcast] at w
          rw [hcast] at g3 g4
          rw [Option.isSome_map]
          apply hN n hnN f (by omega) _ _ (by push_cast; exact g3) (by push_cast; exact g4)
          have : (2 : ℝ) ≤ ε' / 2 * 2 ^ n := by
            have h4' : 4 / ε' < 2 ^ n := lt_of_lt_of_le hM hnM
            rw [div_lt_iff₀ hε'] at h4'; nlinarith
          refine w.trans ?_
          nlinarith
        · exact absurd (s2 hs) g2
      · exact base (.inr (.inr ⟨h4, hs⟩))

/-- off the three special angles the cosine of `p/q` turn, `p/q ≤ 1/4`, is irrational -/
theorem cos_turnAngle_ne_rat {p q : ℕ} (hq : 0 < q) (h4 : 4 * p ≤ q) (h0 : p ≠ 0) (h6 : 6 * p ≠ q)
    (hq4 : 4 * p ≠ q) (c : ℚ) : cos (turnAngle p q) ≠ c := by
  intro h
  have hq' : (q : ℚ) ≠ 0 := by positivity
  have hqp : (0 : ℚ) < q := by positivity
  have := niven_angle_div_pi_eq (r := 2 * (p / q : ℚ)) ⟨c, by
      rw [← h]; unfold turnAngle; push_cast; ring_nf⟩
    ⟨by positivity, by
      have : (4 * p : ℚ) ≤ q := by exact_mod_cast h4
      rw [← mul_div_assoc, div_le_iff₀ hqp]; linarith⟩
  simp only [Set.mem_insert_iff, Set.mem_singleton_iff] at this
  have h4' : (4 * p : ℚ) ≤ q := by exact_mod_cast h4
  have h0' : (p : ℚ) ≠ 0 := by exact_mod_cast h0
  have h0p : (0 : ℚ) < p := by positivity
  rcases this with h | h | h | h | h <;> rw [← mul_div_assoc, div_eq_iff hq'] at h
  · apply h0'; linarith
  · apply h6; have : (6 * p : ℚ) = q := by linarith
    exact_mod_cast this
  · apply hq4; have : (4 * p : ℚ) = q := by linarith
    exact_mod_cast this
  · linarith
  · linarith

theorem threshold_settles {p q : ℕ} (hq : 0 < q) (h4 : 4 * p ≤ q) (h0 : p ≠ 0) (h6 : 6 * p ≠ q)
    (hq4 : 4 * p ≠ q) (a amp : ℕ) (ha : 0 < a) (hamp : a ≤ amp) :
    ∃ N, ∀ n ≥ N, ∀ fuel ≥ N,
      (cosAbove (Int.ofNat (2 ^ n)) q fuel p (a * Int.ofNat (2 ^ n) / amp)
        (a * Int.ofNat (2 ^ n) / amp + 1)).isSome := by
  have hA : (0 : ℝ) < amp := by exact_mod_cast (by omega : 0 < amp)
  have hA' : (0 : ℤ) < amp := by exact_mod_cast (by omega : 0 < amp)
  set c : ℚ := a / amp with hcdef
  have hcR : (c : ℝ) = a / amp := by simp [hcdef]
  have hcpos : (0 : ℝ) < c := by rw [hcR]; positivity
  have hc1 : (c : ℝ) ≤ 1 := by
    rw [hcR, div_le_one hA]; exact_mod_cast hamp
  set τ : ℝ := arccos c / (2 * π) with hτ
  have hτc : cos (2 * π * τ) = c := by
    rw [hτ, mul_div_cancel₀ _ (by positivity), cos_arccos (by linarith) hc1]
  have hne : (p : ℝ) / q - τ ≠ 0 := by
    intro h
    apply cos_turnAngle_ne_rat hq h4 h0 h6 hq4 c
    rw [← hτc]; unfold turnAngle; congr 2; linarith
  have hpos : 0 < |(p : ℝ) / q - τ| := abs_pos.2 hne
  obtain ⟨K, hK⟩ := pow_unbounded_of_one_lt (1 / 2 / |(p : ℝ) / q - τ|) (by norm_num : (1 : ℝ) < 2)
  rw [div_lt_iff₀ hpos] at hK
  obtain ⟨ε, hε, N, hN⟩ := cosAbove_settles hq K p c τ (by omega)
    (by rw [hτ]; have := arccos_nonneg c; positivity)
    (by rw [hτ, div_le_iff₀ (by positivity)]; linarith [arccos_le_pi (c : ℝ)])
    hτc (by have := hcpos.ne'; exact_mod_cast this) hK
  obtain ⟨M, hM⟩ := pow_unbounded_of_one_lt (1 / ε) (by norm_num : (1 : ℝ) < 2)
  refine ⟨max (max N M) (K + 1), fun n hn fuel hf => ?_⟩
  have hnN : n ≥ N := le_trans (le_trans (le_max_left _ _) (le_max_left _ _)) hn
  have hnM : n ≥ M := le_trans (le_trans (le_max_right _ _) (le_max_left _ _)) hn
  have hfK : fuel ≥ K + 1 := le_trans (le_max_right _ _) hf
  have e1 := Int.ediv_mul_le (a * Int.ofNat (2 ^ n)) (ne_of_gt hA')
  have e2 := Int.lt_ediv_add_one_mul_self (a * Int.ofNat (2 ^ n)) hA'
  have e1' : ((a * Int.ofNat (2 ^ n) / amp : ℤ) : ℝ) * amp ≤ a * 2 ^ n := by
    have := (Int.cast_le (R := ℝ)).2 e1; push_cast at this; simpa using this
  have e2' : (a * 2 ^ n : ℝ) < (((a * Int.ofNat (2 ^ n) / amp : ℤ) : ℝ) + 1) * amp := by
    have := (Int.cast_lt (R := ℝ)).2 e2; push_cast at this; simpa using this
  apply hN n hnN fuel hfK
  · rw [hcR, div_mul_eq_mul_div, le_div_iff₀ hA]; exact e1'
  · rw [hcR, div_mul_eq_mul_div, div_le_iff₀ hA]; push_cast; exact e2'.le
  · push_cast
    have h2 : (2 : ℝ) ^ M ≤ 2 ^ n := pow_le_pow_right₀ (by norm_num) hnM
    have : 1 / ε < 2 ^ n := lt_of_lt_of_le hM h2
    rw [div_lt_iff₀ hε] at this
    linarith

theorem countLevels_settles {p q : ℕ} (hq : 0 < q) (h4 : 4 * p ≤ q) (h0 : p ≠ 0) (h6 : 6 * p ≠ q)
    (hq4 : 4 * p ≠ q) (amp : ℕ) : ∀ left m, 2 * (left + m) ≤ amp + 1 →
    ∃ N, ∀ n ≥ N, (countLevels n p q amp left m).isSome := by
  intro left
  induction left with
  | zero => intro m _; exact ⟨0, fun n _ => rfl⟩
  | succ left ih =>
    intro m hm
    obtain ⟨N1, h1⟩ := ih (m + 1) (by omega)
    obtain ⟨N2, h2⟩ := threshold_settles hq h4 h0 h6 hq4 (2 * m + 1) amp (by omega) (by omega)
    refine ⟨max N1 N2, fun n hn => ?_⟩
    have b2 : n ≥ N2 := le_trans (le_max_right _ _) hn
    have := h2 n b2 n b2
    rw [countLevels]
    push_cast at this
    revert this
    generalize cosAbove _ q n p _ _ = r
    intro this
    match r, this with
    | some true, _ => exact h1 n (le_trans (le_max_left _ _) hn)
    | some false, _ => rfl


/-- Some precision settles every threshold. -/
theorem exists_countLevels {p q : Nat} (h : OffTable p q) (amp : Nat) :
    ∃ n, (countLevels n p q amp ((amp + 1) / 2) 0).isSome = true := by
  obtain ⟨hq, h4, h0, h6, h4'⟩ := h
  obtain ⟨N, hN⟩ := countLevels_settles hq h4 h0 h6 h4' amp ((amp + 1) / 2) 0 (by omega)
  exact ⟨N, hN N le_rfl⟩

end Sys2Proof.Machine
end

