-- ==== Sys2Proof/Machine/Carrier.lean ====
section
/-! DEFINITION. The sample function of the carrier oscillator and envelope shaper (spec/42_waveform_synth.md R101, R104
to R108), exact: the real number of R106, rounded half up (D4, D5). -/

namespace Sys2Proof.Machine

/-- `cos (2π p/q) * amp / 2` rounded to the nearest integer, off the angles of `OffTable`, where no tie exists (R107).
256 bits of precision are tried first; if they do not settle it, the least precision that does (DEDUCED, log 12). -/
def sineLevel (p q amp : Nat) (h : OffTable p q) : Nat :=
  match countLevels 256 p q amp ((amp + 1) / 2) 0 with
  | some k => k
  | none => (countLevels (Nat.find (exists_countLevels h amp)) p q amp ((amp + 1) / 2) 0).get
      (Nat.find_spec (exists_countLevels h amp))

/-- How far `num/den` of a turn is from the nearest peak or trough of the sine, as a numerator over `4 * den`. -/
def peakOffset (num den : Nat) : Nat :=
  (2 * (2 * num % den) - den) + (den - 2 * (2 * num % den))

theorem peakOffset_le (num den : Nat) (hden : 0 < den) : peakOffset num den ≤ den := by
  have := Nat.mod_lt (2 * num) hden
  unfold peakOffset; omega

/-- `rhu(± k/2 * amp / 2)`, ties toward +∞ (R8, R105): the rational sines of R107, `k` = 2 or 1. -/
def halfScaled (negative : Bool) (twiceSine amp : Nat) : Int :=
  ((if negative then -(twiceSine * amp : Int) else twiceSine * amp) + 2) / 4

/-- The sample at `p/(4 den)` of a turn from a peak (or, if `negative`, from a trough). At the peak itself the sine is
±1, a sixth of a turn away ±1/2, a quarter of a turn away 0 (the rational rows of R107's table). -/
def carrierFromPeak (negative : Bool) (p den amp : Nat) (hden : 0 < den) (hp : p ≤ den) : Int :=
  if h0 : p = 0 then halfScaled negative 2 amp
  else if h6 : 6 * p = 4 * den then halfScaled negative 1 amp
  else if h4 : 4 * p = 4 * den then 0
  else
    let level := sineLevel p (4 * den) amp ⟨by omega, by omega, h0, h6, h4⟩
    if negative then -(level : Int) else level

/-- `rhu(sin(2π num/den) * amp / 2)` (R105): the sine is negative in the second half of each turn. -/
def carrierOfTurn (num den amp : Nat) (hden : 0 < den) : Int :=
  carrierFromPeak (2 * num / den % 2 == 1) (peakOffset num den) den amp hden
    (peakOffset_le num den hden)

/-- Numerator of `theta(i) = i * fd / fs + (i mod P) / P` over `fs * P` (R104). -/
def thetaNum (fs fd phases i : Nat) : Nat := i * fd * phases + (i % phases) * fs

/-- `carrier(i)` (R106), stated there for `fs, fd, P ≥ 1`; elsewhere a free value (log 6). -/
def carrier (fs fd phases amp i : Nat) : Int :=
  if h : 0 < fs ∧ 0 < fd ∧ 0 < phases then
    carrierOfTurn (thetaNum fs fd phases i) (fs * phases) amp (Nat.mul_pos h.1 h.2.2)
  else Config.carrierUnstated fs fd phases amp i

/-- `s_i = clamp(carrier(i))` under a configuration (R108, R114). -/
def waveSample (cfg : ConfigRegs) (i : Nat) : Int :=
  clamp (carrier cfg.sampleRate.toNat cfg.dataFreq.toNat cfg.numPhases.toNat cfg.amplitude.toNat i)

end Sys2Proof.Machine
end

