-- ==== Sys2Proof/Machine/Flags.lean ====
section
/-! DEFINITION. The flag-like state (spec/10_state.md R26): the codes of `RUN` and `CAUSE`, the view `STATUS`, the gate
(R127), and `validate()`, which computes the cause of a `DomainError` (spec/60_exceptions.md R142, R143). -/

namespace Sys2Proof.Machine

/-- The code of `RUN` (R21). -/
def runCode : RunState → BitVec 2
  | .idle => 0
  | .busy => 1
  | .done => 2
  | .fault => 3

/-- The code of `CAUSE` (R21, R142). -/
def causeCode : Cause → BitVec 3
  | .none => 0
  | .zeroSampleRate => 1
  | .zeroDataFreq => 2
  | .zeroNumPhases => 3
  | .zeroRepeat => 4
  | .badNbits => 5
  | .tooLong => 6

/-- `STATUS` (R21): `RUN` in bits 1:0, `CAUSE` in bits 4:2, bits 7:5 read 0. -/
def statusByte (run : RunState) (cause : Cause) : BitVec 8 := 0#3 ++ causeCode cause ++ runCode run

/-- Configuration registers and `BITMEM` are writable in `IDLE` and `DONE` only (R127). -/
def gateOpen (run : RunState) : Bool := run == .idle || run == .done

/-- `w(c)`, the pairs a symbol appends (R95). -/
def symbolPairs (cfg : ConfigRegs) (c : SymbolKind) : Nat :=
  let fs := cfg.sampleRate.toNat
  nsamp fs (profileOf cfg c).highUs.toNat + nsamp fs (profileOf cfg c).lowUs.toNat

/-- `n_e`, the pairs of an edge silence (R113). -/
def edgePairs (cfg : ConfigRegs) : Nat := nsamp cfg.sampleRate.toNat Config.edgeUs

/-- `N_bound`, the bound on the pairs of a run that needs no pass over `BITMEM` (R116; 90_conflicts.md C9). -/
def pairBound (cfg : ConfigRegs) : Nat :=
  2 * edgePairs cfg + symbolPairs cfg .header +
    cfg.repeatCount.toNat *
      (cfg.nbits.toNat * max (symbolPairs cfg .logic0) (symbolPairs cfg .logic1) + symbolPairs cfg .gap)

/-- `validate()`: the first row of R142 that applies, in the order of the codes (R143); `none` is code 0. -/
def validate (cfg : ConfigRegs) (depth : BitVec 16) : Cause :=
  if cfg.sampleRate = 0 then .zeroSampleRate
  else if cfg.dataFreq = 0 then .zeroDataFreq
  else if cfg.numPhases = 0 then .zeroNumPhases
  else if cfg.repeatCount = 0 then .zeroRepeat
  else if depth.toNat < cfg.nbits.toNat then .badNbits
  else if Config.outCountLimit ≤ 2 * pairBound cfg then .tooLong
  else .none

end Sys2Proof.Machine
end

