-- ==== Sys2Proof/Machine/Registers.lean ====
section
/-! DEFINITION. The register space (spec/10_state.md R33): which number names which register, what a read returns
(R126) and what a write stores (R125). The hard-wired registers are here and nowhere else. -/

namespace Sys2Proof.Machine

/-- The registers of R33. -/
inductive Reg where
  | ctrl
  | status
  | outCount
  | edgeUs
  | sampleRate
  | dataFreq
  | numPhases
  | repeatCount
  | amplitude
  | nbits
  | highUs (c : SymbolKind)
  | lowUs (c : SymbolKind)
  | highFirst (c : SymbolKind)
  deriving DecidableEq, Repr

/-- The register map (R33); `none` for an unused number. -/
def regAt (num : RegNumber) : Option Reg :=
  match num.toNat with
  | 0x00 => some .ctrl
  | 0x01 => some .status
  | 0x02 => some .outCount
  | 0x03 => some .edgeUs
  | 0x04 => some .sampleRate
  | 0x05 => some .dataFreq
  | 0x06 => some .numPhases
  | 0x07 => some .repeatCount
  | 0x08 => some .amplitude
  | 0x09 => some .nbits
  | 0x10 => some (.highUs .logic0)
  | 0x11 => some (.lowUs .logic0)
  | 0x12 => some (.highFirst .logic0)
  | 0x14 => some (.highUs .logic1)
  | 0x15 => some (.lowUs .logic1)
  | 0x16 => some (.highFirst .logic1)
  | 0x18 => some (.highUs .header)
  | 0x19 => some (.lowUs .header)
  | 0x1A => some (.highFirst .header)
  | 0x1C => some (.highUs .gap)
  | 0x1D => some (.lowUs .gap)
  | 0x1E => some (.highFirst .gap)
  | _ => none

/-- The width of a register (R33). -/
def regWidth : Reg → Nat
  | .ctrl => 2
  | .status => 8
  | .outCount => 64
  | .edgeUs => 32
  | .sampleRate => 32
  | .dataFreq => 32
  | .numPhases => 16
  | .repeatCount => 16
  | .amplitude => 8
  | .nbits => 16
  | .highUs _ => 32
  | .lowUs _ => 32
  | .highFirst _ => 1

/-- The registers marked `RW` in R33. -/
def regWritable : Reg → Bool
  | .ctrl | .status | .outCount | .edgeUs | .highUs .gap => false
  | .sampleRate | .dataFreq | .numPhases | .repeatCount | .amplitude | .nbits => true
  | .highUs .logic0 | .highUs .logic1 | .highUs .header => true
  | .lowUs _ | .highFirst _ => true

/-- The value of a register, zero-extended (R126): `CTRL` reads 0 (R20), `EDGE_US` 500 (R19), the Gap's `HIGH_US` 0
(R18). -/
def regValue (s : State) : Reg → RegValue
  | .ctrl => 0
  | .status => (statusByte s.run s.cause).setWidth 64
  | .outCount => s.outCount
  | .edgeUs => BitVec.ofNat 64 Config.edgeUs
  | .sampleRate => s.cfg.sampleRate.setWidth 64
  | .dataFreq => s.cfg.dataFreq.setWidth 64
  | .numPhases => s.cfg.numPhases.setWidth 64
  | .repeatCount => s.cfg.repeatCount.setWidth 64
  | .amplitude => s.cfg.amplitude.setWidth 64
  | .nbits => s.cfg.nbits.setWidth 64
  | .highUs c => (profileOf s.cfg c).highUs.setWidth 64
  | .lowUs c => (profileOf s.cfg c).lowUs.setWidth 64
  | .highFirst c => (profileOf s.cfg c).highFirst.setWidth 64

/-- `RegRead(num)` (R126); an unused number reads 0 (R33, D23). -/
def regRead (s : State) (num : RegNumber) : RegValue :=
  match regAt num with
  | some r => regValue s r
  | none => 0

/-- The effect of a write on the configuration registers: the value is truncated to the register's width (R33); a
read-only register, the command port and the Gap's hard-wired `HIGH_US` store nothing (R18 to R22, R125). -/
def writeReg (r : Reg) (v : RegValue) (cfg : ConfigRegs) : ConfigRegs :=
  match r with
  | .ctrl | .status | .outCount | .edgeUs | .highUs .gap => cfg
  | .sampleRate => { cfg with sampleRate := v.setWidth 32 }
  | .dataFreq => { cfg with dataFreq := v.setWidth 32 }
  | .numPhases => { cfg with numPhases := v.setWidth 16 }
  | .repeatCount => { cfg with repeatCount := v.setWidth 16 }
  | .amplitude => { cfg with amplitude := v.setWidth 8 }
  | .nbits => { cfg with nbits := v.setWidth 16 }
  | .highUs .logic0 => { cfg with logic0 := { cfg.logic0 with highUs := v.setWidth 32 } }
  | .highUs .logic1 => { cfg with logic1 := { cfg.logic1 with highUs := v.setWidth 32 } }
  | .highUs .header => { cfg with header := { cfg.header with highUs := v.setWidth 32 } }
  | .lowUs .logic0 => { cfg with logic0 := { cfg.logic0 with lowUs := v.setWidth 32 } }
  | .lowUs .logic1 => { cfg with logic1 := { cfg.logic1 with lowUs := v.setWidth 32 } }
  | .lowUs .header => { cfg with header := { cfg.header with lowUs := v.setWidth 32 } }
  | .lowUs .gap => { cfg with gap := { cfg.gap with lowUs := v.setWidth 32 } }
  | .highFirst .logic0 => { cfg with logic0 := { cfg.logic0 with highFirst := v.setWidth 1 } }
  | .highFirst .logic1 => { cfg with logic1 := { cfg.logic1 with highFirst := v.setWidth 1 } }
  | .highFirst .header => { cfg with header := { cfg.header with highFirst := v.setWidth 1 } }
  | .highFirst .gap => { cfg with gap := { cfg.gap with highFirst := v.setWidth 1 } }

end Sys2Proof.Machine
end

