-- ==== Sys2Proof/Machine/Ops.lean ====
section
/-! DEFINITION. The named operations over the state: `BITMEM`, `OUT`, the segment registers, emission of pairs, taking
the exception `DomainError` (there is no return from it, R146), and reset. -/

namespace Sys2Proof.Machine

/-! ### `BITMEM` as a canonical list of cells -/

/-- The character stored at an index, if the host has written one: an unlisted entry has no value (log 2). -/
def memLookup : List Host.Cell → Nat → Option Byte
  | [], _ => none
  | (a, b) :: rest, k => if a = k then some b else memLookup rest k

/-- `MemWrite(k, 1, v)` (R7): indices stay strictly rising. -/
def memWrite (k : Nat) (v : Byte) : List Host.Cell → List Host.Cell
  | [] => [(k, v)]
  | (a, b) :: rest =>
    if k < a then (k, v) :: (a, b) :: rest
    else if k = a then (k, v) :: rest
    else (a, b) :: memWrite k v rest

/-- The canonical form: indices strictly rising. -/
def Memory.wf : List Host.Cell → Bool
  | [] => true
  | [_] => true
  | c :: d :: rest => decide (c.1 < d.1) && Memory.wf (d :: rest)

/-- `MemRead(k, 1)` by the core (R73). An entry never written holds a free value (U3, log 2). -/
def bitFetch (mem : List Host.Cell) (k : Nat) : Byte := (memLookup mem k).getD (Config.unwrittenChar k)

/-! ### Plain updates -/

/-- Replace the configuration registers. -/
def State.withCfg (c : ConfigRegs) (s : State) : State := { s with cfg := c }
/-- Replace `RUN`. -/
def State.withRun (r : RunState) (s : State) : State := { s with run := r }
/-- Replace the sequencer position. -/
def State.withPc (p : SeqPos) (s : State) : State := { s with pc := p }
/-- Replace the segment registers. -/
def State.withSeg (r : SegRegs) (s : State) : State := { s with seg := r }
/-- Replace `BITMEM`. -/
def State.withBitmem (m : List Host.Cell) (s : State) : State := { s with bitmem := m }
/-- Replace the agenda. -/
def State.withAgenda (a : List Turn) (s : State) : State := { s with agenda := a }
/-- Replace the answer to the host. -/
def State.withReply (r : Reply) (s : State) : State := { s with reply := r }

/-! ### `OUT` -/

/-- `OutAppendPair(v)` (R46, R109): both bytes and the count, in one step. In a run the count does not wrap (log 16). -/
def outAppendPair (v : Int) (s : State) : State :=
  { s with out := s.out ++ pairBytes v, outCount := s.outCount + 2 }

/-- `OUT <- empty; OUT_COUNT <- 0` (R129). -/
def clearOut (s : State) : State := { s with out := [], outCount := 0 }

/-- `OutRead(j)` (R132): no value at or past `OUT_COUNT`. -/
def outByte (s : State) (j : Nat) : Option Byte :=
  if j < s.outCount.toNat then s.out[j]? else none

/-! ### Segments -/

/-- The second half of `load_segment` (R111): `SEG_KIND`, `SEG_N`, and `I_IDX` back to 0, the phase restart (R115). -/
def loadSegment (g : Segment) (s : State) : State := s.withSeg ⟨g.kind, g.n, 0⟩

/-- The sample of the current pair (R112): the carrier at `I_IDX`, or 0 in a silence. -/
def currentSample (s : State) : Int :=
  match s.seg.kind with
  | .wav => waveSample s.cfg s.seg.idx.toNat
  | .sil => 0

/-- The emit branch of the core's step (R112). -/
def emitPair (s : State) : State :=
  (outAppendPair (currentSample s) s).withSeg { s.seg with idx := s.seg.idx + 1 }

/-- The loop of `SIL` and `WAV` (R102, R103) from `I_IDX` up to `SEG_N`. -/
def finishSegment (s : State) : State := emitPair^[s.seg.n.toNat - s.seg.idx.toNat] s

/-- Execute a segment from local index 0 (R102, R103, R111). -/
def executeSegment (g : Segment) (s : State) : State := finishSegment (loadSegment g s)

/-- What planning a symbol does (R70 to R72, R75, R111): the segment registers take the symbol's segment for the
current `SEG` (DEDUCED, log 9). -/
def planSymbol (c : SymbolKind) (s : State) : State := loadSegment (segmentOf s.cfg c s.pc.seg) s

/-- Execute `segment(c, 0)`, then `segment(c, 1)` (R91 to R94); `SEG` is 0, then 1 (R24, R78; DEDUCED, log 9). -/
def executeSymbol (c : SymbolKind) (s : State) : State :=
  let s := executeSegment (segmentOf s.cfg c 0) (s.withPc { s.pc with seg := 0 })
  executeSegment (segmentOf s.cfg c 1) (s.withPc { s.pc with seg := 1 })

/-! ### The exception and reset -/

/-- `raise DomainError(cause)` (R145): `RUN` and `CAUSE`, and nothing else. -/
def raiseDomainError (c : Cause) (s : State) : State := { s with run := .fault, cause := c }

/-- An accepted `START` (R129): `RUN <- BUSY`, `pc <- (LEAD, 0, 0, 0)`, and the load for it (R111). -/
def beginRun (s : State) : State := loadSegment (edgeSegment s.cfg) ((s.withRun .busy).withPc .start)

/-- Reset, by command (R131) or by hardware (R155): every piece of state takes its reset value (R31) but `BITMEM`,
which is not changed. The depth is no state of the block's, and the agenda and the reply are the host's side (DESIGN
CHOICE, log 15). -/
def resetState (s : State) : State :=
  { State.reset with
    bitmem := s.bitmem
    bitmemDepth := s.bitmemDepth
    agenda := s.agenda
    reply := s.reply }

end Sys2Proof.Machine
end

