-- ==== Sys2Proof/Machine/Place.lean ====
section
/-! DEFINITION. Where each format's next instruction stands (spec/30_encoding.md R55): how a state is set so that the
very next step meets a given word. The block has no instruction memory (R40); its host loads it (log 4). -/

namespace Sys2Proof.Machine

/-- `s` about to fetch a `CHAR`: the core is leaving the header's last segment for input position 0, which holds it. -/
def placeChar (s : State) (ch : Byte) : State :=
  { s with
    run := .busy
    pc := ⟨.header, 0, 0, 1⟩
    seg := ⟨.sil, 0, 0⟩
    cfg := { s.cfg with nbits := 1 }
    bitmem := memWrite 0 ch s.bitmem
    agenda := .coreStep :: s.agenda }

/-- `s` about to execute a `SYM`: the core is at the first segment of a position whose symbol it is. -/
def placeSym (s : State) (w : BitVec 2) : State :=
  let t : State :=
    { s with
      run := .busy
      pc := if w = 0b10#2 then ⟨.header, 0, 0, 0⟩ else ⟨.block, 0, 0, 0⟩
      seg := ⟨.sil, 0, 0⟩
      agenda := .coreInstr :: s.agenda }
  if w = 0b00#2 then { t with cfg := { s.cfg with nbits := 1 }, bitmem := memWrite 0 0x30#8 s.bitmem }
  else if w = 0b01#2 then { t with cfg := { s.cfg with nbits := 1 }, bitmem := memWrite 0 0x31#8 s.bitmem }
  else if w = 0b10#2 then t
  else { t with cfg := { s.cfg with nbits := 0 } }

/-- `s` about to execute a `SEG`: the descriptor is in the segment registers, at local index 0, in the last segment. -/
def placeSeg (s : State) (w : BitVec 46) : State :=
  { s with
    run := .busy
    pc := ⟨.trail, 0, 0, 0⟩
    seg := ⟨if w.getLsbD 45 then .wav else .sil, w.extractLsb' 0 45, 0⟩
    agenda := .coreInstr :: s.agenda }

/-- `s` about to receive a `CTRL`: the host writes it to register 0. -/
def placeCtrl (s : State) (w : BitVec 2) : State :=
  { s with agenda := .host (.regWrite 0 (w.setWidth 64)) :: s.agenda }

end Sys2Proof.Machine
end

