-- ==== Sys2Proof/Machine/Control.lean ====
section
/-! DEFINITION. The `CTRL` instructions (spec/43_host_interface.md): the commands of the host. -/

namespace Sys2Proof.Machine

/-- `NOP` (R130): no effect in any state. -/
def execNop (s : State) : Host.Outcome State Fault Refusal := .next s

/-- `START` (R129): ignored in `BUSY` and `FAULT`; otherwise `OUT` is emptied, the configuration validated, and either
`DomainError` is raised or the run begins. -/
def execStart (s : State) : Host.Outcome State Fault Refusal :=
  if gateOpen s.run then
    let s := clearOut s
    match validate s.cfg s.bitmemDepth with
    | .none => .next (beginRun s)
    | c => .next (raiseDomainError c s)
  else .next s

/-- `RESET` (R131): accepted in every run state; it wins over the `START` bit, which is ignored (R62). -/
def execReset (_startBit : BitVec 1) (s : State) : Host.Outcome State Fault Refusal := .next (resetState s)

end Sys2Proof.Machine
end

