-- ==== Sys2Proof/Machine/SymbolPlanner.lean ====
section
/-! DEFINITION. The `CHAR` instructions (spec/40_symbol_planner.md): the character at the input position is decoded and
the symbol of its bit is planned there. -/

namespace Sys2Proof.Machine

/-- `BIT1` (R70): bit 1, `L1` is planned. -/
def execBit1 (s : State) : Host.Outcome State Fault Refusal := .next (planSymbol (symbolOfBit 1) s)

/-- `BIT0` (R71): bit 0, `L0` is planned. -/
def execBit0 (s : State) : Host.Outcome State Fault Refusal := .next (planSymbol (symbolOfBit 0) s)

/-- `BITX` (R72): bit 0 whatever the character, `L0` is planned, exactly as for `BIT0`; nothing records it. -/
def execBitx (_ch : Byte) (s : State) : Host.Outcome State Fault Refusal :=
  .next (planSymbol (symbolOfBit 0) s)

end Sys2Proof.Machine
end

