-- ==== Sys2Proof/Machine/TimingResolver.lean ====
section
/-! DEFINITION. The `SYM` instructions (spec/41_timing_resolver.md): a symbol is its two segments, in the order its
flag gives. -/

namespace Sys2Proof.Machine

/-- `HDR` (R91). -/
def execHdr (s : State) : Host.Outcome State Fault Refusal := .next (executeSymbol .header s)

/-- `L0` (R92). -/
def execL0 (s : State) : Host.Outcome State Fault Refusal := .next (executeSymbol .logic0 s)

/-- `L1` (R93). -/
def execL1 (s : State) : Host.Outcome State Fault Refusal := .next (executeSymbol .logic1 s)

/-- `GAP` (R94): its high duration is the hard-wired 0, so its waveform segment is `WAV 0`. -/
def execGap (s : State) : Host.Outcome State Fault Refusal := .next (executeSymbol .gap s)

end Sys2Proof.Machine
end

