-- ==== Sys2Proof/Machine/Waveform.lean ====
section
/-! DEFINITION. The `SEG` instructions (spec/42_waveform_synth.md): `n` pairs of silence or of the carrier, from local
index 0. -/

namespace Sys2Proof.Machine

/-- `SIL n` (R102). -/
def execSil (n : Count) (s : State) : Host.Outcome State Fault Refusal := .next (executeSegment ⟨.sil, n⟩ s)

/-- `WAV n` (R103). -/
def execWav (n : Count) (s : State) : Host.Outcome State Fault Refusal := .next (executeSegment ⟨.wav, n⟩ s)

end Sys2Proof.Machine
end

