-- ==== Sys2Proof/Machine/Dispatch.lean ====
section
/-! DEFINITION. One arm per instruction; the meanings are in the family files. -/

namespace Sys2Proof.Machine

/-- The meaning of every instruction, in every state (DESIGN CHOICE, log 10). -/
def exec (i : Instr) (s : State) : Host.Outcome State Fault Refusal :=
  match i with
  | .bit1 => Sys2Proof.Machine.execBit1 s
  | .bit0 => Sys2Proof.Machine.execBit0 s
  | .bitx ch => Sys2Proof.Machine.execBitx ch s
  | .l0 => Sys2Proof.Machine.execL0 s
  | .l1 => Sys2Proof.Machine.execL1 s
  | .hdr => Sys2Proof.Machine.execHdr s
  | .gap => Sys2Proof.Machine.execGap s
  | .sil n => Sys2Proof.Machine.execSil n s
  | .wav n => Sys2Proof.Machine.execWav n s
  | .nop => Sys2Proof.Machine.execNop s
  | .start => Sys2Proof.Machine.execStart s
  | .reset startBit => Sys2Proof.Machine.execReset startBit s

end Sys2Proof.Machine
end

