-- ==== Sys2Proof/Machine/HostPort.lean ====
section
/-! DEFINITION. The operations of the host (spec/43_host_interface.md R125 to R132). -/

namespace Sys2Proof.Machine

/-- `RegWrite(num, v)` (R125): number 0 is a command, decoded from `v[1:0]`, in every run state; any other register is
written when the gate is open (R127); no other effect. -/
def hostRegWrite (num : RegNumber) (v : RegValue) (s : State) : Host.Outcome State Fault Refusal :=
  match regAt num with
  | some .ctrl => exec (decodeCtrl (v.extractLsb' 0 2)) s
  | some r => .next (if gateOpen s.run then s.withCfg (writeReg r v s.cfg) else s)
  | none => .next s

/-- `RegRead(num)` (R126): allowed in every run state, no side effect. -/
def hostRegRead (num : RegNumber) (s : State) : Host.Outcome State Fault Refusal :=
  .next (s.withReply (.value (regRead s num)))

/-- `BitWrite(k, ch)` (R128). -/
def hostBitWrite (k : Nat) (ch : Byte) (s : State) : Host.Outcome State Fault Refusal :=
  .next (if k < s.bitmemDepth.toNat ∧ gateOpen s.run then s.withBitmem (memWrite k ch s.bitmem) else s)

/-- `OutRead(j)` (R132): the byte, or the answer that it is refused; the machine goes on either way (U8). -/
def hostOutRead (j : Nat) (s : State) : Host.Outcome State Fault Refusal :=
  match outByte s j with
  | some b => .next (s.withReply (.byte b))
  | none => .next (s.withReply .refused)

/-- One operation of the host. -/
def hostStep (op : HostOp) (s : State) : Host.Outcome State Fault Refusal :=
  match op with
  | .regWrite num v => hostRegWrite num v s
  | .regRead num => hostRegRead num s
  | .bitWrite k ch => hostBitWrite k ch s
  | .outRead j => hostOutRead j s

/-- The hardware reset (R155). -/
def hardwareReset (s : State) : Host.Outcome State Fault Refusal := .next (resetState s)

end Sys2Proof.Machine
end

