-- ==== Sys2Proof/Machine/Sequencer.lean ====
section
/-! DEFINITION. The sequencer: the symbol at a position (spec/40_symbol_planner.md R75), control transfer (R78), the
load for a position (spec/42_waveform_synth.md R111), and the step of the core (R112). -/

namespace Sys2Proof.Machine

/-- Run `f` on the next state; pass a fault or a refusal on. -/
def andThen (o : Host.Outcome State Fault Refusal) (f : State → Host.Outcome State Fault Refusal) :
    Host.Outcome State Fault Refusal :=
  match o with
  | .next s => f s
  | .fault r => .fault r
  | .refused r => .refused r

/-- `cur_sym(pc)` for `PH` in {`HEADER`, `BLOCK`} (R75). -/
def curSymbol (cfg : ConfigRegs) (mem : List Host.Cell) (pc : SeqPos) : SymbolKind :=
  if pc.ph = .header then .header
  else if pc.pos.toNat < cfg.nbits.toNat then symbolOfBit (bitOf (bitFetch mem pc.pos.toNat))
  else .gap

/-- `advance(pc)` (R78). In `TRAIL` the run ends and `pc` is left as it is. Total by R78's own tests
(DESIGN CHOICE outside the ranges of R24, log 13). -/
def advance (cfg : ConfigRegs) (pc : SeqPos) : SeqPos :=
  match pc.ph with
  | .lead => ⟨.header, 0, 0, 0⟩
  | .header => if pc.seg = 0 then ⟨.header, 0, 0, 1⟩ else ⟨.block, 0, 0, 0⟩
  | .block =>
    if pc.seg = 0 then ⟨.block, pc.rep, pc.pos, 1⟩
    else if pc.pos.toNat < cfg.nbits.toNat then ⟨.block, pc.rep, pc.pos + 1, 0⟩
    else if pc.rep.toNat + 1 < cfg.repeatCount.toNat then ⟨.block, pc.rep + 1, 0, 0⟩
    else ⟨.trail, 0, 0, 0⟩
  | .trail => pc

/-- The descriptor `load_segment` loads for a position (R111): the edge silence in `LEAD` and `TRAIL`, otherwise segment
`SEG` of the symbol at the position. -/
def positionSegment (cfg : ConfigRegs) (mem : List Host.Cell) (pc : SeqPos) : Segment :=
  match pc.ph with
  | .lead | .trail => edgeSegment cfg
  | .header | .block => segmentOf cfg (curSymbol cfg mem pc) pc.seg

/-- `load_segment(pc)` (R111), the load of `positionSegment`. At an input position the character is fetched (R73),
decoded (R56) and its instruction executed, which plans its symbol (DEDUCED, log 9). -/
def loadPosition (s : State) : Host.Outcome State Fault Refusal :=
  match s.pc.ph with
  | .lead | .trail => .next (loadSegment (edgeSegment s.cfg) s)
  | .header => .next (planSymbol .header s)
  | .block =>
    if s.pc.pos.toNat < s.cfg.nbits.toNat then exec (decodeChar (bitFetch s.bitmem s.pc.pos.toNat)) s
    else .next (planSymbol .gap s)

/-- The advance branch of the core's step (R112, R78). -/
def advanceStep (s : State) : Host.Outcome State Fault Refusal :=
  if s.pc.ph = .trail then .next (s.withRun .done)
  else loadPosition (s.withPc (advance s.cfg s.pc))

/-- The step of the core, `core_step` (R112): enabled exactly when `RUN = BUSY`. -/
def coreStep (s : State) : Host.Outcome State Fault Refusal :=
  if s.run = .busy then
    if s.seg.idx.toNat < s.seg.n.toNat then .next (emitPair s) else advanceStep s
  else .fault .noEnabledStep

/-- The instruction the core is at, when it is at the start of one: at the first segment of a symbol the `SYM`
instruction of the position (R75, R57), at any other segment the `SEG` instruction in the segment registers (R58).
`none` inside a segment. -/
def fetchInstr (s : State) : Option Instr :=
  if s.seg.idx ≠ 0 then none
  else if (s.pc.ph = .header ∨ s.pc.ph = .block) ∧ s.pc.seg = 0 then
    some (decodeSym (symbolCode (curSymbol s.cfg s.bitmem s.pc)))
  else some (decodeSeg (segWord s.seg))

/-- The core's steps fused (D20; DESIGN CHOICE, log 11): the instruction it is at, whole, or the rest of the segment it is inside, and then the
advance out of it. -/
def coreInstr (s : State) : Host.Outcome State Fault Refusal :=
  if s.run = .busy then
    match fetchInstr s with
    | some i => andThen (exec i s) advanceStep
    | none => advanceStep (finishSegment s)
  else .fault .noEnabledStep

end Sys2Proof.Machine
end

