-- ==== Sys2Proof/Machine/Turns.lean ====
section
/-! DEFINITION. What happens in each turn of the agenda (log 3). -/

namespace Sys2Proof.Machine

/-- The host is silent: the core takes a step while `RUN = BUSY` (R112); otherwise the machine waits for the host and
all state survives (R152). -/
def silentHost (s : State) : Host.Outcome State Fault Refusal :=
  if s.run = .busy then coreStep s else .next s

/-- One turn of the agenda. -/
def takeTurn (t : Turn) (s : State) : Host.Outcome State Fault Refusal :=
  match t with
  | .coreStep => coreStep s
  | .coreInstr => coreInstr s
  | .host op => hostStep op s
  | .hardwareReset => hardwareReset s

end Sys2Proof.Machine
end

