-- ==== Sys2Proof/Machine/Step.lean ====
section
/-! DEFINITION. One step of the whole machine: the agenda says who moves (log 3). -/

namespace Sys2Proof.Machine

/-- The turn at the head of the agenda is taken; with the agenda empty the host is silent. -/
def step (s : State) : Host.Outcome State Fault Refusal :=
  match s.agenda with
  | [] => silentHost s
  | t :: rest => takeTurn t (s.withAgenda rest)

/-- `s` with a word of the opcode table where the next step fetches it, in the format `tableFormat` reads it in
(log 4, log 8). -/
def State.withFetchWord (s : State) (nbits w : Nat) : State :=
  match tableFormat nbits w with
  | some .char => placeChar s (BitVec.ofNat 8 w)
  | some .sym => placeSym s (BitVec.ofNat 2 w)
  | some .seg => placeSeg s (BitVec.ofNat 46 w)
  | some .ctrl => placeCtrl s (BitVec.ofNat 2 w)
  | none => s

end Sys2Proof.Machine
end

