-- ==== Sys2Proof/Machine/WholeRun.lean ====
section
/-! DEFINITION. The Symbol Plan (spec/40_symbol_planner.md R74), the whole-run function (spec/42_waveform_synth.md R113,
R114) and the total length (R116), as functions of the configuration and `BITMEM`. The machine does not use them: they
are what its runs are compared with. -/

namespace Sys2Proof.Machine

/-- The symbol planned for input position `k` (R74). -/
def inputSymbol (mem : List Host.Cell) (k : Nat) : SymbolKind := symbolOfBit (bitOf (bitFetch mem k))

/-- One payload-plus-gap block of the plan (R74). -/
def planBlock (cfg : ConfigRegs) (mem : List Host.Cell) : List SymbolKind :=
  (List.range cfg.nbits.toNat).map (inputSymbol mem) ++ [.gap]

/-- The Symbol Plan (R74). -/
def symbolPlan (cfg : ConfigRegs) (mem : List Host.Cell) : List SymbolKind :=
  .header :: (List.replicate cfg.repeatCount.toNat (planBlock cfg mem)).flatten

/-- `L`, the length of the plan (R25, R76). -/
def planLength (cfg : ConfigRegs) : Nat := 1 + cfg.repeatCount.toNat * (cfg.nbits.toNat + 1)

/-- `p`, the plan index of a position in `HEADER` or `BLOCK` (R25). -/
def planIndex (cfg : ConfigRegs) (pc : SeqPos) : Nat :=
  if pc.ph = .block then 1 + pc.rep.toNat * (cfg.nbits.toNat + 1) + pc.pos.toNat else 0

/-- `sil(n)` (R114). -/
def silBytes (n : Nat) : List Byte := List.replicate (2 * n) 0

/-- `wav(n)` (R114). -/
def wavBytes (cfg : ConfigRegs) (n : Nat) : List Byte :=
  (List.range n).flatMap fun i => pairBytes (waveSample cfg i)

/-- `bytes` of a segment (R114). -/
def segmentBytes (cfg : ConfigRegs) (g : Segment) : List Byte :=
  match g.kind with
  | .sil => silBytes g.n.toNat
  | .wav => wavBytes cfg g.n.toNat

/-- The bytes of a symbol: its two segments (R91 to R94, R114). -/
def symbolBytes (cfg : ConfigRegs) (c : SymbolKind) : List Byte :=
  segmentBytes cfg (segmentOf cfg c 0) ++ segmentBytes cfg (segmentOf cfg c 1)

/-- `out(cfg, chs)`, the whole output of a run (R114). -/
def runBytes (cfg : ConfigRegs) (mem : List Host.Cell) : List Byte :=
  silBytes (edgePairs cfg) ++ (symbolPlan cfg mem).flatMap (symbolBytes cfg) ++ silBytes (edgePairs cfg)

/-- `c1`: how many of the first `NBITS` characters are '1' (R76). -/
def onesCount (cfg : ConfigRegs) (mem : List Host.Cell) : Nat :=
  (List.range cfg.nbits.toNat).countP fun k => bitFetch mem k = 0x31#8

/-- `N_pairs` (R116), with `c0 = NBITS - c1`. -/
def totalPairs (cfg : ConfigRegs) (mem : List Host.Cell) : Nat :=
  2 * edgePairs cfg + symbolPairs cfg .header +
    cfg.repeatCount.toNat *
      ((cfg.nbits.toNat - onesCount cfg mem) * symbolPairs cfg .logic0 +
        onesCount cfg mem * symbolPairs cfg .logic1 + symbolPairs cfg .gap)

/-- What the current segment has still to append. -/
def segmentRest (s : State) : List Byte :=
  (segmentBytes s.cfg ⟨s.seg.kind, s.seg.n⟩).drop (2 * s.seg.idx.toNat)

/-- What a run has still to append after the current segment: the second segment of the symbol, the symbols after it in
the plan, and the trailing silence (R78, R113). -/
def laterBytes (cfg : ConfigRegs) (mem : List Host.Cell) (pc : SeqPos) : List Byte :=
  match pc.ph with
  | .lead => (symbolPlan cfg mem).flatMap (symbolBytes cfg) ++ silBytes (edgePairs cfg)
  | .header | .block =>
    (if pc.seg = 0 then segmentBytes cfg (segmentOf cfg (curSymbol cfg mem pc) 1) else []) ++
      ((symbolPlan cfg mem).drop (planIndex cfg pc + 1)).flatMap (symbolBytes cfg) ++
      silBytes (edgePairs cfg)
  | .trail => []

end Sys2Proof.Machine
end

