-- ==== Sys2Proof/Safety.lean ====
section
/-! DEFINITION. What claims are stated in: legal output streams, legal positions, the invariant of the machine
(spec/10_state.md R24, R32), the conditions of R142, and the run-state machine (spec/43_host_interface.md R133). -/

namespace Sys2Proof.Machine

/-- A stream of whole sample instants: I equals Q in each, and each sample lies in [-90, 90] (R32 a to c). -/
def LegalStream (out : List Byte) : Prop :=
  ∃ samples : List Int, (∀ v ∈ samples, Config.sampleMin ≤ v ∧ v ≤ Config.sampleMax) ∧
    out = samples.flatMap pairBytes

/-- A position R24 allows under a configuration. -/
def LegalPos (cfg : ConfigRegs) (pc : SeqPos) : Prop :=
  match pc.ph with
  | .lead | .trail => pc.rep = 0 ∧ pc.pos = 0 ∧ pc.seg = 0
  | .header => pc.rep = 0 ∧ pc.pos = 0
  | .block => pc.rep.toNat < cfg.repeatCount.toNat ∧ pc.pos.toNat ≤ cfg.nbits.toNat

/-- What holds while a run is in progress: the configuration is valid (R142), the position is legal (R24), the segment
registers hold the segment of the position (R111), `I_IDX ≤ SEG_N` (R32 d), and what `OUT` holds is what the whole run
will hold, less what is still to come (R49 b, R114). -/
structure Running (s : State) : Prop where
  valid : validate s.cfg s.bitmemDepth = .none
  legalPos : LegalPos s.cfg s.pc
  loaded : (⟨s.seg.kind, s.seg.n⟩ : Segment) = positionSegment s.cfg s.bitmem s.pc
  idxLe : s.seg.idx.toNat ≤ s.seg.n.toNat
  output : s.out ++ segmentRest s ++ laterBytes s.cfg s.bitmem s.pc = runBytes s.cfg s.bitmem

/-- The invariant of the machine (R32, with the canonical form of `BITMEM`). -/
structure Inv (s : State) : Prop where
  memWf : Memory.wf s.bitmem = true
  memInside : ∀ c ∈ s.bitmem, c.1 < s.bitmemDepth.toNat
  count : s.outCount.toNat = s.out.length
  stream : LegalStream s.out
  emptyOut : s.run = .idle ∨ s.run = .fault → s.out = []
  cause : s.cause ≠ .none ↔ s.run = .fault
  running : s.run = .busy → Running s

/-- The condition of each row of R142. -/
def causeHolds (cfg : ConfigRegs) (depth : BitVec 16) : Cause → Prop
  | .none => False
  | .zeroSampleRate => cfg.sampleRate = 0
  | .zeroDataFreq => cfg.dataFreq = 0
  | .zeroNumPhases => cfg.numPhases = 0
  | .zeroRepeat => cfg.repeatCount = 0
  | .badNbits => depth.toNat < cfg.nbits.toNat
  | .tooLong => Config.outCountLimit ≤ 2 * pairBound cfg

/-- The moves of the run-state machine (R133), with the state left as it is among them. -/
def runMoves : RunState → RunState → Bool
  | .idle, .idle | .idle, .busy | .idle, .fault => true
  | .busy, .busy | .busy, .idle | .busy, .done => true
  | .done, .done | .done, .busy | .done, .fault | .done, .idle => true
  | .fault, .fault | .fault, .idle => true
  | .idle, .done | .busy, .fault | .fault, .busy | .fault, .done => false

/-- Where a position stands in the order in which a run visits them (R78): `LEAD`, then the two segments of each plan
element, then `TRAIL`. -/
def visitOrder (cfg : ConfigRegs) (pc : SeqPos) : Nat :=
  match pc.ph with
  | .lead => 0
  | .header | .block => 1 + 2 * planIndex cfg pc + pc.seg.toNat
  | .trail => 1 + 2 * planLength cfg

/-- The state a symbol instruction leaves (R91 to R95): the bytes of both segments appended and counted, the second
segment in the segment registers, exhausted, and `SEG` = 1. -/
def afterSymbol (c : SymbolKind) (s : State) : State :=
  let g := segmentOf s.cfg c 1
  { s with
    out := s.out ++ symbolBytes s.cfg c
    outCount := s.outCount + BitVec.ofNat 64 (2 * symbolPairs s.cfg c)
    seg := ⟨g.kind, g.n, g.n⟩
    pc := { s.pc with seg := 1 } }

/-- The state an outcome leads to. -/
def nextState? (o : Host.Outcome State Fault Refusal) : Option State :=
  match o with
  | .next s => some s
  | .fault _ => none
  | .refused _ => none

/-- `k` steps of the core (R112), stopping where it has none. -/
def coreSteps : Nat → State → Host.Outcome State Fault Refusal
  | 0, s => .next s
  | k + 1, s => andThen (coreStep s) (coreSteps k)

end Sys2Proof.Machine
end

