-- ==== Sys2Proof/Certificates/Slice0/Obligations.lean ====
section
/-! DEFINITION. The statements for the provers. Each docstring names the rules of spec/ it comes from. -/

open Sys2Proof Sys2Proof.Machine

/-! ### Encoding -/

/-- R56, R57, R58, R62: what encodes a well-formed instruction decodes to it, every operand kept. -/
def Obligations.DecodeOfEncode : Prop :=
  ∀ i : Instr, i.wf = true → decode i.format (encode i) = i

/-- R64: every value of every format decodes, to an instruction of that format, and no bit of it is dropped. -/
def Obligations.EveryValueDecodesWithoutLoss : Prop :=
  ∀ (f : Format) (w : BitVec f.width),
    (decode f w).wf = true ∧ (decode f w).format = f ∧ (encode (decode f w)).toNat = w.toNat

/-- R56: format `CHAR`; `BITX` is treated exactly as `BIT0`. -/
def Obligations.CharactersDecode : Prop :=
  decode .char 0x31#8 = .bit1 ∧ decode .char 0x30#8 = .bit0 ∧
    ∀ ch : BitVec 8, ch ≠ 0x31#8 → ch ≠ 0x30#8 →
      decode .char ch = .bitx ch ∧ ∀ s : State, exec (.bitx ch) s = exec .bit0 s

/-- R58: format `SEG`, the kind in bit 45 and the count in bits 44:0. -/
def Obligations.DescriptorsDecode : Prop :=
  ∀ n : Nat, n < 2 ^ 45 →
    decode .seg (BitVec.ofNat 46 n) = .sil (BitVec.ofNat 45 n) ∧
      decode .seg (BitVec.ofNat 46 (2 ^ 45 + n)) = .wav (BitVec.ofNat 45 n)

/-- R56, R57, R58, R62: words written out from the tables. -/
def Obligations.WrittenOutWordsDecode : Prop :=
  decode .char 0b00110001#8 = .bit1 ∧ decode .char 0b00110000#8 = .bit0 ∧
    decode .char 0b01111000#8 = .bitx 0x78#8 ∧
    decode .sym 0b00#2 = .l0 ∧ decode .sym 0b01#2 = .l1 ∧ decode .sym 0b10#2 = .hdr ∧
    decode .sym 0b11#2 = .gap ∧
    decode .seg 0x000000000005#46 = .sil 5#45 ∧ decode .seg 0x20000000000A#46 = .wav 10#45 ∧
    decode .ctrl 0b00#2 = .nop ∧ decode .ctrl 0b01#2 = .start ∧ decode .ctrl 0b10#2 = .reset 0#1 ∧
    decode .ctrl 0b11#2 = .reset 1#1

/-! ### The host's operations -/

/-- R125: number 0 is a command in every run state; with the gate open a write to an `RW` register stores the value
truncated to the register's width, reads otherwise nowhere else, and changes nothing but the configuration registers;
every other write has no effect. The `RW` registers are those of R33, by number and width. -/
def Obligations.RegWriteFollowsItsRule : Prop :=
  (∀ (num : RegNumber) (width : Nat),
    (∃ r, regAt num = some r ∧ regWritable r = true ∧ regWidth r = width) ↔
      (num, width) ∈ [(0x04#6, 32), (0x05#6, 32), (0x06#6, 16), (0x07#6, 16), (0x08#6, 8), (0x09#6, 16),
        (0x10#6, 32), (0x11#6, 32), (0x12#6, 1), (0x14#6, 32), (0x15#6, 32), (0x16#6, 1),
        (0x18#6, 32), (0x19#6, 32), (0x1A#6, 1), (0x1D#6, 32), (0x1E#6, 1)]) ∧
  ∀ (s : State) (num : RegNumber) (v : RegValue),
    (num = 0 → hostStep (.regWrite num v) s = exec (decode .ctrl (v.extractLsb' 0 2)) s) ∧
    (∀ r, regAt num = some r → regWritable r = true → gateOpen s.run = true →
      ∃ t, hostStep (.regWrite num v) s = .next t ∧
        regRead t num = BitVec.ofNat 64 (v.toNat % 2 ^ regWidth r) ∧
        (∀ num', num' ≠ num → regRead t num' = regRead s num') ∧
        t = s.withCfg t.cfg) ∧
    (num ≠ 0 → (∀ r, regAt num = some r → regWritable r = false ∨ gateOpen s.run = false) →
      hostStep (.regWrite num v) s = .next s)

/-- R12 to R20, R33, R126: what each number reads, zero-extended, in every state: the configuration registers, and what
reads as a constant, the unused numbers among it. -/
def Obligations.HardwiredRegistersRead : Prop :=
  ∀ s : State,
    (regRead s 0x03 = 500 ∧ regRead s 0x1C = 0 ∧ regRead s 0x00 = 0) ∧
    (regRead s 0x04 = s.cfg.sampleRate.setWidth 64 ∧ regRead s 0x05 = s.cfg.dataFreq.setWidth 64 ∧
      regRead s 0x06 = s.cfg.numPhases.setWidth 64 ∧ regRead s 0x07 = s.cfg.repeatCount.setWidth 64 ∧
      regRead s 0x08 = s.cfg.amplitude.setWidth 64 ∧ regRead s 0x09 = s.cfg.nbits.setWidth 64) ∧
    (regRead s 0x10 = s.cfg.logic0.highUs.setWidth 64 ∧ regRead s 0x11 = s.cfg.logic0.lowUs.setWidth 64 ∧
      regRead s 0x12 = s.cfg.logic0.highFirst.setWidth 64) ∧
    (regRead s 0x14 = s.cfg.logic1.highUs.setWidth 64 ∧ regRead s 0x15 = s.cfg.logic1.lowUs.setWidth 64 ∧
      regRead s 0x16 = s.cfg.logic1.highFirst.setWidth 64) ∧
    (regRead s 0x18 = s.cfg.header.highUs.setWidth 64 ∧ regRead s 0x19 = s.cfg.header.lowUs.setWidth 64 ∧
      regRead s 0x1A = s.cfg.header.highFirst.setWidth 64) ∧
    (regRead s 0x1D = s.cfg.gap.lowUs.setWidth 64 ∧ regRead s 0x1E = s.cfg.gap.highFirst.setWidth 64) ∧
    (∀ num ∈ [0x0A#6, 0x0B#6, 0x0C#6, 0x0D#6, 0x0E#6, 0x0F#6, 0x13#6, 0x17#6, 0x1B#6, 0x1F#6],
      regRead s num = 0) ∧
    (∀ num : RegNumber, 0x20 ≤ num.toNat → regRead s num = 0) ∧
    ∀ num : RegNumber, regAt num = none → regRead s num = 0

/-- R127: in `BUSY` and `FAULT` configuration writes and `BitWrite` have no effect. -/
def Obligations.ClosedGateDropsWrites : Prop :=
  ∀ (s : State) (num : RegNumber) (v : RegValue) (k : Nat) (ch : Byte),
    s.run = .busy ∨ s.run = .fault →
    (num ≠ 0 → hostStep (.regWrite num v) s = .next s) ∧ hostStep (.bitWrite k ch) s = .next s

/-- R128: `BitWrite` stores its character in its entry and in no other; past the depth, or with the gate closed, it has
no effect. -/
def Obligations.BitWriteStoresOneEntry : Prop :=
  ∀ (s : State) (k : Nat) (ch : Byte),
    (k < s.bitmemDepth.toNat → gateOpen s.run = true →
      ∃ t, hostStep (.bitWrite k ch) s = .next t ∧ bitFetch t.bitmem k = ch ∧
        (∀ j, j ≠ k → bitFetch t.bitmem j = bitFetch s.bitmem j) ∧ t = s.withBitmem t.bitmem) ∧
    (¬ (k < s.bitmemDepth.toNat ∧ gateOpen s.run = true) → hostStep (.bitWrite k ch) s = .next s)

/-- R126, R132, R47: the reads of the host change nothing but the answer it gets: the register's value; the byte of `OUT`
below `OUT_COUNT`, and a refusal at or past it. The premise is the invariant's R32 a. The
field that holds the answer is the model's (log 5). -/
def Obligations.ReadsHaveNoSideEffect : Prop :=
  ∀ s : State, s.outCount.toNat = s.out.length →
    (∀ num, hostStep (.regRead num) s = .next (s.withReply (.value (regRead s num)))) ∧
    (∀ (j : Nat) (h : j < s.out.length),
      hostStep (.outRead j) s = .next (s.withReply (.byte s.out[j]))) ∧
    (∀ j, s.out.length ≤ j → hostStep (.outRead j) s = .next (s.withReply .refused))

/-- R62, R125: a write to register 0 is the command in its two low bits, in every run state; `RESET` wins. -/
def Obligations.CommandWritesDecode : Prop :=
  ∀ (s : State) (v : RegValue),
    hostStep (.regWrite 0 v) s =
      if v.toNat / 2 % 2 = 1 then .next (resetState s)
      else if v.toNat % 2 = 1 then exec .start s
      else .next s

/-- R21, R126: `STATUS` reads `RUN` in bits 1:0 and `CAUSE` in bits 4:2, with 0 above; the codes of both. -/
def Obligations.StatusReadsRunAndCause : Prop :=
  (runCode .idle = 0 ∧ runCode .busy = 1 ∧ runCode .done = 2 ∧ runCode .fault = 3) ∧
  (causeCode .none = 0 ∧ causeCode .zeroSampleRate = 1 ∧ causeCode .zeroDataFreq = 2 ∧
    causeCode .zeroNumPhases = 3 ∧ causeCode .zeroRepeat = 4 ∧ causeCode .badNbits = 5 ∧
    causeCode .tooLong = 6) ∧
  ∀ s : State, (regRead s 0x01).toNat = (runCode s.run).toNat + 4 * (causeCode s.cause).toNat ∧
    regRead s 0x02 = s.outCount

/-! ### The `CHAR` instructions -/

/-- R70, R71, R72, R111: the segment registers take segment `SEG` of `L1` for '1' and of `L0` for every other character;
nothing else changes. That planning a symbol is this load is read from the spec by inference (DEDUCED, log 9). -/
def Obligations.CharInstructionsPlanTheirSymbol : Prop :=
  ∀ (s : State) (ch : Byte),
    let g1 := segmentOf s.cfg .logic1 s.pc.seg
    let g0 := segmentOf s.cfg .logic0 s.pc.seg
    exec .bit1 s = .next { s with seg := ⟨g1.kind, g1.n, 0⟩ } ∧
    exec .bit0 s = .next { s with seg := ⟨g0.kind, g0.n, 0⟩ } ∧
    exec (.bitx ch) s = .next { s with seg := ⟨g0.kind, g0.n, 0⟩ }

/-! ### The `SYM` instructions -/

/-- R91 to R95: each symbol instruction appends the bytes of `segment(c, 0)` and then of `segment(c, 1)`,
`nsamp(high) + nsamp(low)` pairs, and leaves the rest of the state as it was. What it leaves in the segment
registers and in `SEG` is read from the spec by inference (DEDUCED, log 9). -/
def Obligations.SymbolInstructionsAppendBothSegments : Prop :=
  ∀ s : State,
    exec .l0 s = .next (afterSymbol .logic0 s) ∧ exec .l1 s = .next (afterSymbol .logic1 s) ∧
    exec .hdr s = .next (afterSymbol .header s) ∧ exec .gap s = .next (afterSymbol .gap s)

/-- R94: the Gap appends `nsamp(LOW_US)` pairs, all of them silence, whatever its `HIGH_FIRST` is. -/
def Obligations.GapIsSilence : Prop :=
  ∀ s : State, ∃ t, exec .gap s = .next t ∧
    t.out = s.out ++ List.replicate (2 * nsamp s.cfg.sampleRate.toNat s.cfg.gap.lowUs.toNat) 0

/-- R89, R90: the ordering function: two segments, the waveform with the sample count of the high duration and the
silence with that of the low one, in the order of `HIGH_FIRST`. -/
def Obligations.SegmentOrderFollowsHighFirst : Prop :=
  ∀ (cfg : ConfigRegs) (c : SymbolKind),
    let p := profileOf cfg c
    let isWav (g : Segment) := g.kind = .wav ∧ g.n.toNat = nsamp cfg.sampleRate.toNat p.highUs.toNat
    let isSil (g : Segment) := g.kind = .sil ∧ g.n.toNat = nsamp cfg.sampleRate.toNat p.lowUs.toNat
    (p.highFirst = 1 → isWav (segmentOf cfg c 0) ∧ isSil (segmentOf cfg c 1)) ∧
    (p.highFirst = 0 → isSil (segmentOf cfg c 0) ∧ isWav (segmentOf cfg c 1))

/-! ### The `SEG` instructions and the sample function -/

/-- R102: `SIL n`, `KIND` 0, appends `2n` zero bytes; only `OUT`, its count and the segment registers change. -/
def Obligations.SilAppendsZeroPairs : Prop :=
  ∀ (s : State) (n : Count),
    decode .seg (0#1 ++ n : BitVec 46) = .sil n ∧
    ∃ t, exec (.sil n) s = .next t ∧
      t = { s with
        out := s.out ++ List.replicate (2 * n.toNat) 0
        outCount := s.outCount + BitVec.ofNat 64 (2 * n.toNat)
        seg := t.seg }

/-- R103, R109: `WAV n`, `KIND` 1, appends, for each local index from 0 to `n - 1`, the byte of the clamped carrier
twice; only `OUT`, its count and the segment registers change. -/
def Obligations.WavAppendsCarrierPairs : Prop :=
  ∀ (s : State) (n : Count),
    decode .seg (1#1 ++ n : BitVec 46) = .wav n ∧
    ∃ t, exec (.wav n) s = .next t ∧
      t = { s with
        out := s.out ++ (List.range n.toNat).flatMap fun i =>
          [enc8 (waveSample s.cfg i), enc8 (waveSample s.cfg i)]
        outCount := s.outCount + BitVec.ofNat 64 (2 * n.toNat)
        seg := t.seg }

/-- R103, R115: whatever came before, under one configuration what `WAV n` appends is a prefix of what a longer `WAV m`
appends: every waveform restarts at local index 0. -/
def Obligations.WaveformsArePrefixesOfOneSequence : Prop :=
  ∀ (s t : State) (n m : Count), s.cfg = t.cfg → n.toNat ≤ m.toNat →
    ∃ s' t' bytes rest, exec (.wav n) s = .next s' ∧ exec (.wav m) t = .next t' ∧
      s'.out = s.out ++ bytes ∧ t'.out = t.out ++ bytes ++ rest

/-- R103, R106: the first pair of a non-empty `WAV` is `00 00`. -/
def Obligations.WaveformsBeginAtZero : Prop :=
  ∀ (s : State) (n : Count), s.cfg.sampleRate ≠ 0 → s.cfg.dataFreq ≠ 0 → s.cfg.numPhases ≠ 0 → n ≠ 0 →
    ∃ t rest, exec (.wav n) s = .next t ∧ t.out = s.out ++ 0 :: 0 :: rest

/-- R104, R105, R106: `carrier(i)` is the exact real sine of the phase, scaled by half the amplitude and rounded half
up; its bounds; and it is 0 at local index 0 and for amplitude 0. -/
def Obligations.CarrierIsTheRoundedSine : Prop :=
  ∀ fs fd phases amp i : Nat, 0 < fs → 0 < fd → 0 < phases →
    carrier fs fd phases amp i =
      ⌊Real.sin (2 * Real.pi * ((i : ℝ) * fd / fs + ((i % phases : Nat) : ℝ) / phases)) * (amp / 2) + 1 / 2⌋ ∧
    (-((amp / 2 : Nat) : Int) ≤ carrier fs fd phases amp i ∧
      carrier fs fd phases amp i ≤ ((amp + 1) / 2 : Nat)) ∧
    carrier fs fd phases amp 0 = 0 ∧ carrier fs fd phases 0 i = 0

/-- R104, R107: the carrier is periodic with period `lcm(fs / gcd(fs, fd), P)`. -/
def Obligations.CarrierIsPeriodic : Prop :=
  ∀ fs fd phases amp i : Nat, 0 < fs → 0 < fd → 0 < phases →
    carrier fs fd phases amp (i + Nat.lcm (fs / Nat.gcd fs fd) phases) = carrier fs fd phases amp i

/-- R107: the carrier is 0 at every local index whose phase is a whole number of half turns. -/
def Obligations.CarrierIsZeroAtHalfTurns : Prop :=
  ∀ fs fd phases amp i : Nat, 0 < fs → 0 < fd → 0 < phases →
    fs * phases ∣ 2 * thetaNum fs fd phases i → carrier fs fd phases amp i = 0

/-- R108: a waveform sample is the carrier clamped to [-90, 90], for every configuration; up to amplitude 180 the clamp
changes nothing. -/
def Obligations.SamplesAreClamped : Prop :=
  ∀ (cfg : ConfigRegs) (i : Nat),
    let c := carrier cfg.sampleRate.toNat cfg.dataFreq.toNat cfg.numPhases.toNat cfg.amplitude.toNat i
    waveSample cfg i = min 90 (max (-90) c) ∧ (-90 ≤ waveSample cfg i ∧ waveSample cfg i ≤ 90) ∧
    (cfg.sampleRate ≠ 0 → cfg.dataFreq ≠ 0 → cfg.numPhases ≠ 0 → cfg.amplitude.toNat ≤ 180 →
      waveSample cfg i = c)

/-- R60: the byte of a legal sample is its two's complement, in 0x00 to 0x5A or 0xA6 to 0xFF, and the sample is read back
from it. -/
def Obligations.SampleBytesAreTwosComplement : Prop :=
  ∀ v : Int, -90 ≤ v → v ≤ 90 →
    (0 ≤ v → ((enc8 v).toNat : Int) = v) ∧ (v < 0 → ((enc8 v).toNat : Int) = 256 + v) ∧
    ((enc8 v).toNat ≤ 0x5A ∨ 0xA6 ≤ (enc8 v).toNat) ∧ (enc8 v).toInt = v

/-- R85, R87: the sample count is the rational `fs * d_us / 10^6` rounded half up. -/
def Obligations.SampleCountIsRoundedHalfUp : Prop :=
  ∀ fs us : Nat, (nsamp fs us : Int) = ⌊(fs : ℚ) * us / 1000000 + 1 / 2⌋

/-- R86: the integer form of the sample count, and a, b, c, d: it is monotone, within one half of the exact quotient, 0
exactly below half a sample, and rounded for each segment on its own. -/
def Obligations.SampleCountProperties : Prop :=
  ∀ fs us : Nat,
    nsamp fs us = (fs * us + 500000) / 1000000 ∧
    (∀ fs' us', fs ≤ fs' → us ≤ us' → nsamp fs us ≤ nsamp fs' us') ∧
    |(nsamp fs us : ℚ) - (fs : ℚ) * us / 1000000| ≤ 1 / 2 ∧
    (nsamp fs us = 0 ↔ fs * us < 500000) ∧
    (∀ us', nsamp fs us + nsamp fs us' ≤ nsamp fs (us + us') + 1 ∧
      nsamp fs (us + us') ≤ nsamp fs us + nsamp fs us' + 1) ∧
    (∀ (cfg : ConfigRegs) (c : SymbolKind), (symbolBytes cfg c).length =
      2 * (nsamp cfg.sampleRate.toNat (profileOf cfg c).highUs.toNat +
        nsamp cfg.sampleRate.toNat (profileOf cfg c).lowUs.toNat))

/-- R88: a zero duration is zero samples, and every sample count of 32-bit registers fits `SEG_N`: what is loaded is the
count itself. -/
def Obligations.SampleCountFitsSegN : Prop :=
  ∀ (cfg : ConfigRegs) (us : BitVec 32),
    nsamp cfg.sampleRate.toNat 0 = 0 ∧
    (countOf cfg us.toNat).toNat = nsamp cfg.sampleRate.toNat us.toNat

/-! ### The `CTRL` instructions -/

/-- R130: `NOP`, value 0b00, changes nothing, in every state. -/
def Obligations.NopHasNoEffect : Prop :=
  decode .ctrl 0b00#2 = .nop ∧ ∀ s : State, exec .nop s = .next s

/-- R129, R111, R145: `START`, value 0b01. In `BUSY` and `FAULT` it has no effect. In `IDLE` and `DONE` it empties `OUT`;
with a valid configuration it then enters `BUSY` at `(LEAD, 0, 0, 0)` and loads the leading silence; otherwise it enters
`FAULT` and records the cause. Nothing else changes. -/
def Obligations.StartFollowsItsRule : Prop :=
  decode .ctrl 0b01#2 = .start ∧
  ∀ s : State,
    (s.run = .busy ∨ s.run = .fault → exec .start s = .next s) ∧
    (s.run = .idle ∨ s.run = .done → validate s.cfg s.bitmemDepth = .none →
      exec .start s = .next
        { s with
          run := .busy
          out := []
          outCount := 0
          pc := ⟨.lead, 0, 0, 0⟩
          seg := ⟨.sil, BitVec.ofNat 45 (nsamp s.cfg.sampleRate.toNat 500), 0⟩ }) ∧
    (s.run = .idle ∨ s.run = .done → validate s.cfg s.bitmemDepth ≠ .none →
      exec .start s = .next
        { s with
          run := .fault
          cause := validate s.cfg s.bitmemDepth
          out := []
          outCount := 0 })

/-- R131, R155: `RESET`, with either value of the `START` bit and in every run state, gives every register its reset
value and does not change `BITMEM`; the hardware reset has exactly the same effect. -/
def Obligations.ResetClearsAllButBitmem : Prop :=
  decode .ctrl 0b10#2 = .reset 0#1 ∧ decode .ctrl 0b11#2 = .reset 1#1 ∧
  ∀ (s : State) (b : BitVec 1), ∃ t, exec (.reset b) s = .next t ∧
    t.cfg = ⟨0, 0, 0, 0, 0, 0, ⟨0, 0, 0⟩, ⟨0, 0, 0⟩, ⟨0, 0, 0⟩, ⟨0, 0⟩⟩ ∧ t.run = .idle ∧ t.cause = .none ∧
    t.outCount = 0 ∧ t.out = [] ∧ t.seg = ⟨.sil, 0, 0⟩ ∧ t.pc = ⟨.lead, 0, 0, 0⟩ ∧ regRead t 0x03 = 500 ∧
    t.bitmem = s.bitmem ∧ hardwareReset s = .next t

/-- R142, R143: `validate()` is 0 exactly when no row of the table applies, and otherwise the lowest code that does. -/
def Obligations.ValidateReportsLowestCause : Prop :=
  ∀ (cfg : ConfigRegs) (depth : BitVec 16),
    (validate cfg depth = .none ↔ ∀ c, ¬ causeHolds cfg depth c) ∧
    ∀ c, c ≠ .none →
      (validate cfg depth = c ↔
        causeHolds cfg depth c ∧ ∀ c', causeHolds cfg depth c' → causeCode c ≤ causeCode c')

/-! ### Frames -/

/-- What the instructions leave unchanged. Every entry of `BITMEM` is read as before (R41, R131). What `OUT` held stays
its beginning, except after `START` and `RESET`. That `CHAR` changes only the segment registers, that `SEG` leaves the
position and that `SYM` leaves `SEG` = 1 in it are read from the spec by inference (DEDUCED, log 9). That the depth, the
agenda and the reply are kept, by `RESET` too, is the model's choice (log 1, 3, 5, 15). -/
def Obligations.InstructionFrames : Prop :=
  ∀ (s t : State) (i : Instr), exec i s = .next t →
    (∀ k, bitFetch t.bitmem k = bitFetch s.bitmem k) ∧ t.bitmemDepth = s.bitmemDepth ∧
    t.agenda = s.agenda ∧ t.reply = s.reply ∧
    (i.format ≠ .ctrl →
      t.cfg = s.cfg ∧ t.run = s.run ∧ t.cause = s.cause ∧ s.out <+: t.out) ∧
    (i.format = .char → t.out = s.out ∧ t.outCount = s.outCount ∧ t.pc = s.pc) ∧
    (i.format = .seg → t.pc = s.pc) ∧
    (i.format = .sym → t.pc = { s.pc with seg := 1 }) ∧
    (i = .nop → t = s) ∧ (i = .start → t.cfg = s.cfg)

/-! ### The sequencer -/

/-- R112, R109, R46: in `BUSY` below the end of the segment the core appends one pair, and only `OUT`, its count and
`I_IDX` change. -/
def Obligations.CoreStepEmitsOnePair : Prop :=
  ∀ s : State, s.run = .busy → s.seg.idx.toNat < s.seg.n.toNat →
    let v := if s.seg.kind = .wav then waveSample s.cfg s.seg.idx.toNat else 0
    coreStep s = .next
      { s with
        out := s.out ++ [enc8 v, enc8 v]
        outCount := s.outCount + 2
        seg := { s.seg with idx := s.seg.idx + 1 } }

/-- R112, R111: in `BUSY` at the end of a segment before `TRAIL` the core advances the position and loads its segment;
nothing else changes. -/
def Obligations.CoreStepAdvancesAndLoads : Prop :=
  ∀ s : State, s.run = .busy → s.seg.n.toNat ≤ s.seg.idx.toNat → s.pc.ph ≠ .trail →
    let p := advance s.cfg s.pc
    let g := positionSegment s.cfg s.bitmem p
    coreStep s = .next { s with pc := p, seg := ⟨g.kind, g.n, 0⟩ }

/-- R112, R134: at the end of the trailing silence the core writes `DONE` and nothing else. -/
def Obligations.CoreStepEndsRun : Prop :=
  ∀ s : State, s.run = .busy → s.seg.n.toNat ≤ s.seg.idx.toNat → s.pc.ph = .trail →
    coreStep s = .next { s with run := .done }

/-- R112: the core has a step exactly when `RUN = BUSY`. -/
def Obligations.CoreStepsExactlyWhenBusy : Prop :=
  ∀ s : State, (∃ t, coreStep s = .next t) ↔ s.run = .busy

/-- R78: from a legal position of a valid configuration `advance` goes to the legal position that is next in the order of
a run. -/
def Obligations.AdvanceVisitsPositionsInOrder : Prop :=
  ∀ (cfg : ConfigRegs) (pc : SeqPos), LegalPos cfg pc → cfg.repeatCount ≠ 0 → pc.ph ≠ .trail →
    LegalPos cfg (advance cfg pc) ∧ visitOrder cfg (advance cfg pc) = visitOrder cfg pc + 1

/-- R75, R25: the symbol at a position, by its code; and at a legal position it is the element of the Symbol Plan at the
plan index. -/
def Obligations.CurrentSymbolIsPlanElement : Prop :=
  ∀ (cfg : ConfigRegs) (mem : List Host.Cell) (pc : SeqPos), pc.ph = .header ∨ pc.ph = .block →
    symbolCode (curSymbol cfg mem pc) =
      (if pc.ph = .header then 0b10
        else if pc.pos.toNat < cfg.nbits.toNat then (bitOf (bitFetch mem pc.pos.toNat)).setWidth 2
        else 0b11) ∧
    (LegalPos cfg pc → (symbolPlan cfg mem)[planIndex cfg pc]? = some (curSymbol cfg mem pc))

/-- R76: the length of the plan, and how often each symbol stands in it. -/
def Obligations.PlanLengthAndCounts : Prop :=
  ∀ (cfg : ConfigRegs) (mem : List Host.Cell),
    (symbolPlan cfg mem).length = 1 + cfg.repeatCount.toNat * (cfg.nbits.toNat + 1) ∧
    (symbolPlan cfg mem).count .header = 1 ∧
    (symbolPlan cfg mem).count .gap = cfg.repeatCount.toNat ∧
    (symbolPlan cfg mem).count .logic1 = cfg.repeatCount.toNat * onesCount cfg mem ∧
    (symbolPlan cfg mem).count .logic0 =
      cfg.repeatCount.toNat * (cfg.nbits.toNat - onesCount cfg mem)

/-- R77: `NBITS = 0` is accepted, and the plan is the Header and the Gaps, `1 + R` symbols, whatever `BITMEM` holds. -/
def Obligations.EmptyInputPlansHeaderAndGaps : Prop :=
  ∀ (cfg : ConfigRegs) (mem : List Host.Cell), cfg.nbits = 0 →
    (∀ depth, validate cfg depth ≠ .badNbits) ∧
    symbolPlan cfg mem = .header :: List.replicate cfg.repeatCount.toNat .gap ∧
    (symbolPlan cfg mem).length = 1 + cfg.repeatCount.toNat

/-! ### The whole machine -/

/-- R31: the state after reset; and a `START` straight after reset raises `DomainError(ZERO_SAMPLE_RATE)`. -/
def Obligations.ResetLeavesTheTabledValues : Prop :=
  (State.reset.cfg = ⟨0, 0, 0, 0, 0, 0, ⟨0, 0, 0⟩, ⟨0, 0, 0⟩, ⟨0, 0, 0⟩, ⟨0, 0⟩⟩ ∧
    State.reset.run = .idle ∧ State.reset.cause = .none ∧ State.reset.outCount = 0 ∧
    State.reset.out = [] ∧ State.reset.seg = ⟨.sil, 0, 0⟩ ∧ State.reset.pc = ⟨.lead, 0, 0, 0⟩ ∧
    regRead State.reset 0x03 = 500 ∧ regRead State.reset 0x01 = 0) ∧
  ∃ t, exec .start State.reset = .next t ∧ t.run = .fault ∧ t.cause = .zeroSampleRate ∧
    regRead t 0x01 = 0x07

/-- R32: the invariant holds at reset. -/
def Obligations.ResetSatisfiesInvariant : Prop := Inv State.reset

/-- R32, R49 b, R22: every step keeps the invariant: `OUT_COUNT` is the length of `OUT`, which is whole pairs of legal
samples; `I_IDX ≤ SEG_N` in `BUSY`; `OUT` is empty in `IDLE` and `FAULT`; there is a cause exactly in `FAULT`; `BITMEM`
keeps its canonical form below its depth; and in `BUSY` what `OUT` holds is the run's whole output less what is still to
come. A step takes a turn of the model's agenda (log 3), which may be a fused one (log 11). -/
def Obligations.StepKeepsInvariant : Prop :=
  ∀ s t : State, Inv s → step s = .next t → Inv t

/-- R114, R112: a run. From an accepted `START`, `N_pairs + 2L + 2` steps of the core lead to `DONE`, and `OUT` is then
`out(cfg, chs)`. With a silent host (log 3) these are the steps of the machine. -/
def Obligations.RunProducesTheWholeOutput : Prop :=
  ∀ s : State, s.run = .idle ∨ s.run = .done → validate s.cfg s.bitmemDepth = .none →
    let k := totalPairs s.cfg s.bitmem + 2 * planLength s.cfg + 2
    ∃ t u, exec .start s = .next t ∧ coreSteps k t = .next u ∧
      u.run = .done ∧ u.out = runBytes s.cfg s.bitmem ∧ u.outCount.toNat = u.out.length ∧
      u.cfg = s.cfg ∧ u.bitmem = s.bitmem ∧ (s.agenda = [] → core.run k t = .next u)

/-- R134, R49 b, c: under any order of host operations and core steps, `OUT` in `BUSY` is a beginning of the run's
whole output, and the step that writes `DONE` leaves exactly that output. The order is that of the model's agenda, fused turns among its
turns (log 3, 11). -/
def Obligations.DoneMeansComplete : Prop :=
  ∀ s t : State, Inv s → s.run = .busy → step s = .next t →
    s.out <+: runBytes s.cfg s.bitmem ∧ (t.run = .done → t.out = runBytes s.cfg s.bitmem)

/-- R112, R166: with a silent host a run always ends: from any `BUSY` state that meets the invariant at most
`N_pairs + 2L + 2` steps lead to `DONE`. That an empty agenda makes the core step is the model's (log 3). -/
def Obligations.EveryRunEnds : Prop :=
  ∀ s : State, Inv s → s.run = .busy → s.agenda = [] →
    ∃ k u, k ≤ totalPairs s.cfg s.bitmem + 2 * planLength s.cfg + 2 ∧ core.run k s = .next u ∧ u.run = .done

/-- R116: the total length, and that the bound of the `TOO_LONG` check bounds it. -/
def Obligations.OutputLength : Prop :=
  ∀ (cfg : ConfigRegs) (mem : List Host.Cell),
    (runBytes cfg mem).length = 2 * totalPairs cfg mem ∧ totalPairs cfg mem ≤ pairBound cfg

/-- R54, R49 a: two runs of the machine with the same valid configuration and the same first `NBITS` entries of
`BITMEM`, whatever the states they start from otherwise are, reach `DONE` after equally many core steps with equal `OUT`;
and so the whole-run function depends on these alone. -/
def Obligations.OutputDependsOnInputAlone : Prop :=
  (∀ s s' : State, s.run = .idle ∨ s.run = .done → s'.run = .idle ∨ s'.run = .done →
    validate s.cfg s.bitmemDepth = .none → validate s'.cfg s'.bitmemDepth = .none → s.cfg = s'.cfg →
    (∀ k, k < s.cfg.nbits.toNat → bitFetch s.bitmem k = bitFetch s'.bitmem k) →
    ∃ k t t' u u', exec .start s = .next t ∧ exec .start s' = .next t' ∧
      coreSteps k t = .next u ∧ coreSteps k t' = .next u' ∧
      u.run = .done ∧ u'.run = .done ∧ u.out = u'.out) ∧
  ∀ (cfg : ConfigRegs) (mem mem' : List Host.Cell),
    (∀ k, k < cfg.nbits.toNat → bitFetch mem k = bitFetch mem' k) →
    runBytes cfg mem = runBytes cfg mem'

/-- D20: a fused turn of the core, the model's own (log 11), is a number of its steps. -/
def Obligations.FusedTurnIsSomeCoreSteps : Prop :=
  ∀ s : State, s.run = .busy → LegalPos s.cfg s.pc →
    (⟨s.seg.kind, s.seg.n⟩ : Segment) = positionSegment s.cfg s.bitmem s.pc →
    s.seg.idx.toNat ≤ s.seg.n.toNat →
    ∃ k, 0 < k ∧ coreInstr s = coreSteps k s

/-- A step runs the instruction that is decoded: in a fused turn the one the core is at, and then the advance; in a write
to `CTRL` the command (R125); on reaching an input position the character's (R73, R111). With the agenda empty and `BUSY`
the step is the core's step (R112). The agenda is the model's (log 3), the fused turn and the instruction fetched for it
are the model's (log 11, D20), and that the load at an input position is the character's instruction is read from the
spec by inference (DEDUCED, log 9). -/
def Obligations.StepRunsTheDecodedInstruction : Prop :=
  (∀ (s : State) (rest : List Turn) (i : Instr), s.agenda = .coreInstr :: rest → s.run = .busy →
    fetchInstr (s.withAgenda rest) = some i →
    step s = andThen (exec i (s.withAgenda rest)) advanceStep) ∧
  (∀ (s : State) (rest : List Turn) (v : RegValue), s.agenda = .host (.regWrite 0 v) :: rest →
    step s = exec (decode .ctrl (BitVec.ofNat 2 v.toNat)) (s.withAgenda rest)) ∧
  (∀ s : State, s.agenda = [] → s.run = .busy → s.seg.n.toNat ≤ s.seg.idx.toNat →
    s.pc.ph ≠ .trail → (advance s.cfg s.pc).ph = .block →
    (advance s.cfg s.pc).pos.toNat < s.cfg.nbits.toNat →
    step s = exec (decode .char (bitFetch s.bitmem (advance s.cfg s.pc).pos.toNat))
      (s.withPc (advance s.cfg s.pc))) ∧
  (∀ s : State, s.seg.idx = 0 → s.pc.ph = .header ∨ s.pc.ph = .block → s.pc.seg = 0 →
    fetchInstr s = some (decode .sym (symbolCode (curSymbol s.cfg s.bitmem s.pc)))) ∧
  (∀ s : State, s.seg.idx = 0 → s.pc.ph = .lead ∨ s.pc.ph = .trail ∨ s.pc.seg = 1 →
    fetchInstr s = some (decode .seg (kindBit s.seg.kind ++ s.seg.n : BitVec 46))) ∧
  (∀ s : State, s.agenda = [] → s.run = .busy → step s = coreStep s)

/-- R41, R51, R150: who writes what. The core writes neither a configuration register nor `BITMEM`. A host operation that
is no command writes neither `OUT` nor `STATUS` nor a register of the core, and no host operation appends to `OUT`. The
fused turn (log 11), and that the agenda (log 3), the reply (log 5) and the depth (log 1), by `RESET` too (log 15), are
kept, are the model's. -/
def Obligations.WhoWritesWhat : Prop :=
  (∀ s t : State, coreStep s = .next t ∨ coreInstr s = .next t →
    t.cfg = s.cfg ∧ t.bitmem = s.bitmem ∧ t.bitmemDepth = s.bitmemDepth ∧ t.reply = s.reply ∧
      t.agenda = s.agenda ∧ t.cause = s.cause) ∧
  (∀ (s t : State) (op : HostOp), hostStep op s = .next t →
    ((∀ v, op ≠ .regWrite 0 v) →
      t.run = s.run ∧ t.cause = s.cause ∧ t.out = s.out ∧ t.outCount = s.outCount ∧ t.seg = s.seg ∧
        t.pc = s.pc) ∧
    (t.out = s.out ∨ t.out = []) ∧ t.bitmemDepth = s.bitmemDepth ∧ t.agenda = s.agenda)

/-- R51, R127: of the steps taken in `BUSY` only a reset changes a configuration register, and none at all changes
`BITMEM`. The agenda and what a reset keeps of it are the model's (log 3, 15). -/
def Obligations.RunInputsDoNotChange : Prop :=
  ∀ s t : State, s.run = .busy → step s = .next t →
    (∀ k, bitFetch t.bitmem k = bitFetch s.bitmem k) ∧
      (t.cfg = s.cfg ∨ t = resetState (s.withAgenda t.agenda))

/-- R49 b, R52, R46: while a run goes on, what a host sees of `OUT` is a beginning of what it sees later, longer by whole
pairs. The turns are the model's (log 3, 11). -/
def Obligations.OutputOnlyGrowsDuringRun : Prop :=
  ∀ s t : State, s.run = .busy → step s = .next t → t.run = .busy ∨ t.run = .done →
    ∃ more : List Byte, t.out = s.out ++ more ∧ more.length % 2 = 0

/-- R133, R140: the run-state machine: every step makes one of its moves. A step that waits (log 3) or is fused (log 11)
is the model's. -/
def Obligations.RunStateMachine : Prop :=
  ∀ s t : State, step s = .next t → runMoves s.run t.run = true

/-- R145, R146, R165: in `FAULT` nothing but a reset has an effect: any other step leaves everything but the agenda and
the answer to the host as it was. The agenda and the answer are the model's (log 3, 5, 15). -/
def Obligations.FaultIsLeftOnlyByReset : Prop :=
  ∀ s t : State, s.run = .fault → step s = .next t →
    t = resetState (s.withAgenda t.agenda) ∨ t = (s.withAgenda t.agenda).withReply t.reply

/-- R135, R112: a step is never refused, and it stops only where the agenda gives the core a turn that it does not have,
out of `BUSY`. The agenda and the stop are the model's (log 3). -/
def Obligations.StepStopsOnlyOnDisabledCoreTurn : Prop :=
  ∀ s : State,
    (∃ t, step s = .next t) ∨
      (step s = .fault .noEnabledStep ∧ s.run ≠ .busy ∧
        ∃ rest, s.agenda = .coreStep :: rest ∨ s.agenda = .coreInstr :: rest)

/-- R155, R131: the hardware reset has exactly the effect of the command `RESET`. The agenda is the
model's (log 3). -/
def Obligations.HardwareResetEqualsCommand : Prop :=
  ∀ (s : State) (rest : List Turn) (b : BitVec 1), s.agenda = .hardwareReset :: rest →
    step s = exec (.reset b) (s.withAgenda rest)
end

