-- ==== Sys2Proof/Laws/Carrier.lean ====
section
/-! SUPPORT. What the exact comparison says about the real cosine, and where the carrier's angle lies. -/

namespace Sys2Proof.Machine

open Real

theorem cosAbove_sound {one : Int} (hone : 0 < one) {q : ℕ} (hq : 0 < q) :
    ∀ (fuel p : ℕ) (lo hi : Int) (c : ℝ) (b : Bool), 2 * p ≤ q → (lo : ℝ) ≤ c * one →
      c * one ≤ hi → cos (turnAngle p q) ≠ c → cosAbove one q fuel p lo hi = some b →
      (b = true ↔ c < cos (turnAngle p q)) := by
  have hone' : (0 : ℝ) < one := by exact_mod_cast hone
  intro fuel
  induction fuel with
  | zero => intro p lo hi c b _ _ _ _ h; simp [cosAbove] at h
  | succ fuel ih =>
    intro p lo hi c b hp hl hh hne h
    have nonpos : hi ≤ 0 → c ≤ 0 := fun h' => by
      have : (hi : ℝ) ≤ 0 := by exact_mod_cast h'
      nlinarith
    have nonneg : 0 ≤ lo → 0 ≤ c := fun h' => by
      have : (0 : ℝ) ≤ lo := by exact_mod_cast h'
      by_contra hc
      nlinarith [mul_neg_of_neg_of_pos (not_le.1 hc) hone']
    rw [cosAbove] at h
    split_ifs at h with h1 h2 h3 h4 h5 h6 h7 h8
    · simp only [Option.some.injEq] at h; subst h
      have z := turnAngle_zero_of_eq h1 hq
      have := nonpos h2
      simp only [true_iff]; rw [z]; rw [z] at hne
      exact lt_of_le_of_ne this (Ne.symm hne)
    · simp only [Option.some.injEq] at h; subst h
      have z := turnAngle_zero_of_eq h1 hq
      have := nonneg h3
      simp; linarith
    · simp only [Option.some.injEq] at h; subst h
      have := turnAngle_pos_of_lt h4
      have := nonpos h5
      simp; linarith
    · have hc := nonneg h6
      have hC := turnAngle_pos_of_lt h4
      have e := cos_turnAngle_double p q
      obtain ⟨g1, g2⟩ := double_encloses hone h6 hl hh
      have := ih (2 * p) _ _ (2 * c ^ 2 - 1) b (by omega) g1 g2 (by
        rw [e]; intro h'
        apply hne
        have : (cos (turnAngle p q) - c) * (cos (turnAngle p q) + c) = 0 := by nlinarith
        rcases mul_eq_zero.1 this with h' | h' <;> linarith) h
      rw [this, e]
      constructor <;> intro h' <;> nlinarith
    · simp only [Option.some.injEq] at h; subst h
      have := turnAngle_neg_of_gt (by omega) hp
      have := nonneg h7
      simp; linarith
    · have hc := nonpos h8
      have hC := turnAngle_neg_of_gt (by omega) hp
      have e := cos_turnAngle_fold p q hq hp
      obtain ⟨g1, g2⟩ := double_encloses_neg hone h8 hl hh
      rw [Option.map_eq_some_iff] at h
      obtain ⟨b', h, rfl⟩ := h
      have hne' : cos (turnAngle (q - 2 * p) q) ≠ 2 * c ^ 2 - 1 := by
        rw [e]; intro h'
        apply hne
        have : (cos (turnAngle p q) - c) * (cos (turnAngle p q) + c) = 0 := by nlinarith
        rcases mul_eq_zero.1 this with h' | h' <;> linarith
      have := ih (q - 2 * p) _ _ (2 * c ^ 2 - 1) b' (by omega) g1 g2 hne' h
      have e2 : ((!b') = true ↔ ¬ (b' = true)) := by cases b' <;> simp
      rw [e2, this, e]
      rw [e] at hne'
      constructor
      · intro h'
        have := lt_of_le_of_ne (not_lt.1 h') hne'
        nlinarith
      · intro h' h''
        nlinarith

theorem sineLevel_spec (p q amp : Nat) (h : OffTable p q) :
    ∃ n, countLevels n p q amp ((amp + 1) / 2) 0 = some (sineLevel p q amp h) := by
  unfold sineLevel
  split
  · next k e => exact ⟨256, e⟩
  · exact ⟨_, (Option.some_get _).symm⟩

theorem countLevels_sound {n p q amp : Nat} (h : OffTable p q) : ∀ left m k, 2 * (left + m) ≤ amp + 1 →
    (m = 0 ∨ ((2 * m - 1 : ℝ) / amp < cos (turnAngle p q))) →
    countLevels n p q amp left m = some k →
    (k = 0 ∨ ((2 * k - 1 : ℝ) / amp < cos (turnAngle p q))) ∧
    (k = left + m ∨ cos (turnAngle p q) < (2 * k + 1 : ℝ) / amp) := by
  obtain ⟨hq, h4, h0, h6, h4'⟩ := h
  intro left
  induction left with
  | zero =>
    intro m k _ hm e
    simp only [countLevels, Option.some.injEq] at e; subst e
    exact ⟨hm, .inl (by simp)⟩
  | succ left ih =>
    intro m k hl hm e
    have hA : (0 : ℝ) < amp := by exact_mod_cast (by omega : 0 < amp)
    have hA' : (0 : ℤ) < amp := by exact_mod_cast (by omega : 0 < amp)
    have hne : cos (turnAngle p q) ≠ (2 * m + 1 : ℝ) / amp := by
      have := cos_turnAngle_ne_rat hq h4 h0 h6 h4' ((2 * m + 1) / amp)
      simpa using this
    have hone : (0 : Int) < Int.ofNat (2 ^ n) := Int.natCast_pos.2 (by positivity)
    have e1 := Int.ediv_mul_le ((2 * m + 1) * Int.ofNat (2 ^ n)) (ne_of_gt hA')
    have e2 := Int.lt_ediv_add_one_mul_self ((2 * m + 1) * Int.ofNat (2 ^ n)) hA'
    have snd := cosAbove_sound hone hq n p ((2 * m + 1) * Int.ofNat (2 ^ n) / amp)
      ((2 * m + 1) * Int.ofNat (2 ^ n) / amp + 1) ((2 * m + 1 : ℝ) / amp)
    rw [countLevels] at e
    revert e
    generalize hr : cosAbove (Int.ofNat (2 ^ n)) q n p ((2 * m + 1) * Int.ofNat (2 ^ n) / amp)
      ((2 * m + 1) * Int.ofNat (2 ^ n) / amp + 1) = r
    intro e
    have bnd1 : (((2 * m + 1) * Int.ofNat (2 ^ n) / amp : ℤ) : ℝ)
        ≤ (2 * m + 1 : ℝ) / amp * (Int.ofNat (2 ^ n) : ℤ) := by
      rw [div_mul_eq_mul_div, le_div_iff₀ hA]; exact_mod_cast e1
    have bnd2 : (2 * m + 1 : ℝ) / amp * (Int.ofNat (2 ^ n) : ℤ)
        ≤ (((2 * m + 1) * Int.ofNat (2 ^ n) / amp + 1 : ℤ) : ℝ) := by
      rw [div_mul_eq_mul_div, div_le_iff₀ hA]; exact_mod_cast e2.le
    match r with
    | none => simp at e
    | some false =>
      simp only [Option.some.injEq] at e; subst e
      have := snd false (by omega) bnd1 bnd2 hne hr
      refine ⟨hm, .inr ?_⟩
      simp only [Bool.false_eq_true, false_iff, not_lt] at this
      exact lt_of_le_of_ne this hne
    | some true =>
      have := snd true (by omega) bnd1 bnd2 hne hr
      have c := ih (m + 1) k (by omega) (.inr (by
        have t := this.1 rfl
        convert t using 2; push_cast; ring)) e
      refine ⟨c.1, ?_⟩
      rcases c.2 with c | c
      · left; omega
      · right; exact c

theorem sineLevel_bounds (p q amp : Nat) (h : OffTable p q) :
    (sineLevel p q amp h = 0 ∨ (sineLevel p q amp h : ℝ) - 1 / 2 < cos (turnAngle p q) * amp / 2) ∧
    cos (turnAngle p q) * amp / 2 < (sineLevel p q amp h : ℝ) + 1 / 2 := by
  obtain ⟨n, e⟩ := sineLevel_spec p q amp h
  obtain ⟨h1, h2⟩ := countLevels_sound h _ 0 _ (by omega) (.inl rfl) e
  generalize sineLevel p q amp h = k at *
  rcases Nat.eq_zero_or_pos amp with h0 | h0
  · subst h0
    simp at h1 h2 ⊢
    have : k = 0 := by
      simp [countLevels] at e; omega
    subst this; constructor <;> norm_num
  have hA : (0 : ℝ) < amp := by exact_mod_cast h0
  constructor
  · rcases h1 with h1 | h1
    · exact .inl h1
    · right; rw [div_lt_iff₀ hA] at h1; linarith
  · rcases h2 with h2 | h2
    · have c1 : cos (turnAngle p q) ≤ 1 := cos_le_one _
      have : (amp : ℝ) + 1 ≤ 2 * k + 1 := by exact_mod_cast (by omega : amp + 1 ≤ 2 * k + 1)
      nlinarith
    · rw [lt_div_iff₀ hA] at h2; linarith

theorem sin_turn (num den : Nat) (hden : 0 < den) :
    sin (2 * π * (num / den)) =
      (if (2 * num / den % 2 == 1) = true then -1 else 1) * cos (turnAngle (peakOffset num den) (4 * den)) := by
  have hd : (den : ℝ) ≠ 0 := by positivity
  set k := 2 * num / den with hk
  set r := 2 * num % den with hr
  have hdiv : (den : ℝ) * k + r = 2 * num := by exact_mod_cast Nat.div_add_mod (2 * num) den
  have e1 : 2 * π * (num / den) = π * (r / den) + k * π := by
    field_simp; linarith
  rw [e1, sin_add_nat_mul_pi]
  have e2 : cos (turnAngle (peakOffset num den) (4 * den)) = sin (π * (r / den)) := by
    rw [← cos_pi_div_two_sub]
    have hp : peakOffset num den = (2 * r - den) + (den - 2 * r) := rfl
    rw [hp]
    rcases le_total den (2 * r) with h | h
    · rw [show den - 2 * r = 0 by omega, add_zero, ← cos_neg]
      congr 1; unfold turnAngle; push_cast [h]; field_simp; ring
    · rw [show 2 * r - den = 0 by omega, zero_add]
      congr 1; unfold turnAngle; push_cast [h]; field_simp; ring
  rw [e2]
  congr 1
  rcases Nat.mod_two_eq_zero_or_one k with h | h
  · rw [h]; simp [Even.neg_one_pow (Nat.even_iff.2 h)]
  · rw [h]; simp [Odd.neg_one_pow (Nat.odd_iff.2 h)]


end Sys2Proof.Machine
end

