-- ==== Sys2Proof/Laws/Memory.lean ====
section
/-! SUPPORT. The laws of `BITMEM` as a list of cells: a write keeps the canonical form, is read back, and leaves every
other entry as it was. -/

namespace Sys2Proof.Machine

theorem memLookup_memWrite_self (k : Nat) (v : Byte) (m : List Host.Cell) :
    memLookup (memWrite k v m) k = some v := by
  induction m with
  | nil => simp [memWrite, memLookup]
  | cons c rest ih =>
    obtain ⟨a, b⟩ := c
    rw [memWrite]
    split_ifs with h1 h2
    · simp [memLookup]
    · simp [memLookup]
    · rw [memLookup, if_neg (Ne.symm h2), ih]

theorem memLookup_memWrite_of_ne {k j : Nat} (h : j ≠ k) (v : Byte) (m : List Host.Cell) :
    memLookup (memWrite k v m) j = memLookup m j := by
  induction m with
  | nil => simp [memWrite, memLookup, Ne.symm h]
  | cons c rest ih =>
    obtain ⟨a, b⟩ := c
    rw [memWrite]
    split_ifs with h1 h2
    · rw [memLookup, if_neg (Ne.symm h)]
    · subst h2; simp [memLookup, Ne.symm h]
    · rw [memLookup, memLookup, ih]

/-- In canonical form every later index is above the first. -/
theorem Memory.wf_cons {c : Host.Cell} {m : List Host.Cell} :
    Memory.wf (c :: m) = true ↔ (∀ d ∈ m, c.1 < d.1) ∧ Memory.wf m = true := by
  induction m generalizing c with
  | nil => simp [Memory.wf]
  | cons d rest ih =>
    rw [Memory.wf, Bool.and_eq_true, decide_eq_true_eq]
    constructor
    · rintro ⟨h, hw⟩
      refine ⟨fun e he => ?_, hw⟩
      rcases List.mem_cons.1 he with rfl | he
      · exact h
      · exact h.trans ((ih.1 hw).1 e he)
    · rintro ⟨h, hw⟩
      exact ⟨h d (List.mem_cons_self ..), hw⟩

/-- A write adds no index but its own. -/
theorem mem_memWrite {k : Nat} {v : Byte} {m : List Host.Cell} {c : Host.Cell}
    (h : c ∈ memWrite k v m) : c = (k, v) ∨ c ∈ m := by
  induction m with
  | nil => simpa [memWrite] using h
  | cons d rest ih =>
    obtain ⟨a, b⟩ := d
    rw [memWrite] at h
    split_ifs at h with h1 h2
    · exact List.mem_cons.1 h
    · rcases List.mem_cons.1 h with h | h
      · exact .inl h
      · exact .inr (List.mem_cons_of_mem _ h)
    · rcases List.mem_cons.1 h with h | h
      · exact .inr (h ▸ List.mem_cons_self ..)
      · exact (ih h).imp_right (List.mem_cons_of_mem _)

theorem memWrite_wf (k : Nat) (v : Byte) {m : List Host.Cell} (h : Memory.wf m = true) :
    Memory.wf (memWrite k v m) = true := by
  induction m with
  | nil => rfl
  | cons d rest ih =>
    obtain ⟨a, b⟩ := d
    obtain ⟨h1, h2⟩ := Memory.wf_cons.1 h
    rw [memWrite]
    split_ifs with g1 g2
    · exact Memory.wf_cons.2 ⟨fun e he => by
        rcases List.mem_cons.1 he with rfl | he
        · exact g1
        · exact g1.trans (h1 e he), h⟩
    · subst g2; exact Memory.wf_cons.2 ⟨h1, h2⟩
    · refine Memory.wf_cons.2 ⟨fun e he => ?_, ih h2⟩
      rcases mem_memWrite he with rfl | he
      · show a < k
        omega
      · exact h1 e he

/-- Only one list in canonical form answers every lookup as a given one does: equal memories are equal data. -/
theorem Memory.ext {m m' : List Host.Cell} (h : Memory.wf m = true) (h' : Memory.wf m' = true)
    (e : ∀ k, memLookup m k = memLookup m' k) : m = m' := by
  have below : ∀ (k : Nat) (l : List Host.Cell), (∀ d ∈ l, k < d.1) → memLookup l k = none := by
    intro k l
    induction l with
    | nil => intro _; rfl
    | cons c l ih =>
      intro hl
      rw [memLookup, if_neg (by have := hl c (List.mem_cons_self ..); omega),
        ih fun d hd => hl d (List.mem_cons_of_mem _ hd)]
  induction m generalizing m' with
  | nil =>
    cases m' with
    | nil => rfl
    | cons c l => have := e c.1; simp [memLookup] at this
  | cons c m ih =>
    cases m' with
    | nil => have := e c.1; simp [memLookup] at this
    | cons c' m' =>
      obtain ⟨a1, a2⟩ := Memory.wf_cons.1 h
      obtain ⟨b1, b2⟩ := Memory.wf_cons.1 h'
      have key : c.1 = c'.1 := by
        rcases lt_trichotomy c.1 c'.1 with hlt | heq | hgt
        · have := e c.1
          rw [memLookup, if_pos rfl, memLookup, if_neg (by omega),
            below _ _ fun d hd => hlt.trans (b1 d hd)] at this
          cases this
        · exact heq
        · have := e c'.1
          rw [memLookup, if_neg (by omega), memLookup, if_pos rfl,
            below _ _ fun d hd => hgt.trans (a1 d hd)] at this
          cases this
      have val : c.2 = c'.2 := by
        have := e c.1
        rw [memLookup, if_pos rfl, memLookup, if_pos key.symm] at this
        exact Option.some.inj this
      have hc : c = c' := Prod.ext key val
      subst hc
      congr 1
      refine ih a2 b2 fun k => ?_
      have := e k
      rw [memLookup, memLookup] at this
      split_ifs at this with hk
      · subst hk; rw [below _ _ a1, below _ _ b1]
      · exact this

end Sys2Proof.Machine
end

