-- ==== Sys2Proof/Laws/State.lean ====
section
/-! SUPPORT. What each named update leaves in each field of the state. -/

namespace Sys2Proof.Machine

variable (s : State)

@[simp] theorem withCfg_cfg (c : ConfigRegs) : (State.withCfg c s).cfg = c := rfl
@[simp] theorem withCfg_run (c : ConfigRegs) : (State.withCfg c s).run = s.run := rfl
@[simp] theorem withCfg_cause (c : ConfigRegs) : (State.withCfg c s).cause = s.cause := rfl
@[simp] theorem withCfg_outCount (c : ConfigRegs) : (State.withCfg c s).outCount = s.outCount := rfl
@[simp] theorem withCfg_out (c : ConfigRegs) : (State.withCfg c s).out = s.out := rfl
@[simp] theorem withCfg_seg (c : ConfigRegs) : (State.withCfg c s).seg = s.seg := rfl
@[simp] theorem withCfg_pc (c : ConfigRegs) : (State.withCfg c s).pc = s.pc := rfl
@[simp] theorem withCfg_bitmem (c : ConfigRegs) : (State.withCfg c s).bitmem = s.bitmem := rfl
@[simp] theorem withCfg_bitmemDepth (c : ConfigRegs) : (State.withCfg c s).bitmemDepth = s.bitmemDepth := rfl
@[simp] theorem withCfg_agenda (c : ConfigRegs) : (State.withCfg c s).agenda = s.agenda := rfl
@[simp] theorem withCfg_reply (c : ConfigRegs) : (State.withCfg c s).reply = s.reply := rfl

@[simp] theorem withRun_cfg (r : RunState) : (State.withRun r s).cfg = s.cfg := rfl
@[simp] theorem withRun_run (r : RunState) : (State.withRun r s).run = r := rfl
@[simp] theorem withRun_cause (r : RunState) : (State.withRun r s).cause = s.cause := rfl
@[simp] theorem withRun_outCount (r : RunState) : (State.withRun r s).outCount = s.outCount := rfl
@[simp] theorem withRun_out (r : RunState) : (State.withRun r s).out = s.out := rfl
@[simp] theorem withRun_seg (r : RunState) : (State.withRun r s).seg = s.seg := rfl
@[simp] theorem withRun_pc (r : RunState) : (State.withRun r s).pc = s.pc := rfl
@[simp] theorem withRun_bitmem (r : RunState) : (State.withRun r s).bitmem = s.bitmem := rfl
@[simp] theorem withRun_bitmemDepth (r : RunState) : (State.withRun r s).bitmemDepth = s.bitmemDepth := rfl
@[simp] theorem withRun_agenda (r : RunState) : (State.withRun r s).agenda = s.agenda := rfl
@[simp] theorem withRun_reply (r : RunState) : (State.withRun r s).reply = s.reply := rfl

@[simp] theorem withPc_cfg (p : SeqPos) : (State.withPc p s).cfg = s.cfg := rfl
@[simp] theorem withPc_run (p : SeqPos) : (State.withPc p s).run = s.run := rfl
@[simp] theorem withPc_cause (p : SeqPos) : (State.withPc p s).cause = s.cause := rfl
@[simp] theorem withPc_outCount (p : SeqPos) : (State.withPc p s).outCount = s.outCount := rfl
@[simp] theorem withPc_out (p : SeqPos) : (State.withPc p s).out = s.out := rfl
@[simp] theorem withPc_seg (p : SeqPos) : (State.withPc p s).seg = s.seg := rfl
@[simp] theorem withPc_pc (p : SeqPos) : (State.withPc p s).pc = p := rfl
@[simp] theorem withPc_bitmem (p : SeqPos) : (State.withPc p s).bitmem = s.bitmem := rfl
@[simp] theorem withPc_bitmemDepth (p : SeqPos) : (State.withPc p s).bitmemDepth = s.bitmemDepth := rfl
@[simp] theorem withPc_agenda (p : SeqPos) : (State.withPc p s).agenda = s.agenda := rfl
@[simp] theorem withPc_reply (p : SeqPos) : (State.withPc p s).reply = s.reply := rfl

@[simp] theorem withSeg_cfg (r : SegRegs) : (State.withSeg r s).cfg = s.cfg := rfl
@[simp] theorem withSeg_run (r : SegRegs) : (State.withSeg r s).run = s.run := rfl
@[simp] theorem withSeg_cause (r : SegRegs) : (State.withSeg r s).cause = s.cause := rfl
@[simp] theorem withSeg_outCount (r : SegRegs) : (State.withSeg r s).outCount = s.outCount := rfl
@[simp] theorem withSeg_out (r : SegRegs) : (State.withSeg r s).out = s.out := rfl
@[simp] theorem withSeg_seg (r : SegRegs) : (State.withSeg r s).seg = r := rfl
@[simp] theorem withSeg_pc (r : SegRegs) : (State.withSeg r s).pc = s.pc := rfl
@[simp] theorem withSeg_bitmem (r : SegRegs) : (State.withSeg r s).bitmem = s.bitmem := rfl
@[simp] theorem withSeg_bitmemDepth (r : SegRegs) : (State.withSeg r s).bitmemDepth = s.bitmemDepth := rfl
@[simp] theorem withSeg_agenda (r : SegRegs) : (State.withSeg r s).agenda = s.agenda := rfl
@[simp] theorem withSeg_reply (r : SegRegs) : (State.withSeg r s).reply = s.reply := rfl

@[simp] theorem withBitmem_cfg (m : List Host.Cell) : (State.withBitmem m s).cfg = s.cfg := rfl
@[simp] theorem withBitmem_run (m : List Host.Cell) : (State.withBitmem m s).run = s.run := rfl
@[simp] theorem withBitmem_cause (m : List Host.Cell) : (State.withBitmem m s).cause = s.cause := rfl
@[simp] theorem withBitmem_outCount (m : List Host.Cell) : (State.withBitmem m s).outCount = s.outCount := rfl
@[simp] theorem withBitmem_out (m : List Host.Cell) : (State.withBitmem m s).out = s.out := rfl
@[simp] theorem withBitmem_seg (m : List Host.Cell) : (State.withBitmem m s).seg = s.seg := rfl
@[simp] theorem withBitmem_pc (m : List Host.Cell) : (State.withBitmem m s).pc = s.pc := rfl
@[simp] theorem withBitmem_bitmem (m : List Host.Cell) : (State.withBitmem m s).bitmem = m := rfl
@[simp] theorem withBitmem_bitmemDepth (m : List Host.Cell) : (State.withBitmem m s).bitmemDepth = s.bitmemDepth := rfl
@[simp] theorem withBitmem_agenda (m : List Host.Cell) : (State.withBitmem m s).agenda = s.agenda := rfl
@[simp] theorem withBitmem_reply (m : List Host.Cell) : (State.withBitmem m s).reply = s.reply := rfl

@[simp] theorem withAgenda_cfg (a : List Turn) : (State.withAgenda a s).cfg = s.cfg := rfl
@[simp] theorem withAgenda_run (a : List Turn) : (State.withAgenda a s).run = s.run := rfl
@[simp] theorem withAgenda_cause (a : List Turn) : (State.withAgenda a s).cause = s.cause := rfl
@[simp] theorem withAgenda_outCount (a : List Turn) : (State.withAgenda a s).outCount = s.outCount := rfl
@[simp] theorem withAgenda_out (a : List Turn) : (State.withAgenda a s).out = s.out := rfl
@[simp] theorem withAgenda_seg (a : List Turn) : (State.withAgenda a s).seg = s.seg := rfl
@[simp] theorem withAgenda_pc (a : List Turn) : (State.withAgenda a s).pc = s.pc := rfl
@[simp] theorem withAgenda_bitmem (a : List Turn) : (State.withAgenda a s).bitmem = s.bitmem := rfl
@[simp] theorem withAgenda_bitmemDepth (a : List Turn) : (State.withAgenda a s).bitmemDepth = s.bitmemDepth := rfl
@[simp] theorem withAgenda_agenda (a : List Turn) : (State.withAgenda a s).agenda = a := rfl
@[simp] theorem withAgenda_reply (a : List Turn) : (State.withAgenda a s).reply = s.reply := rfl

@[simp] theorem withReply_cfg (r : Reply) : (State.withReply r s).cfg = s.cfg := rfl
@[simp] theorem withReply_run (r : Reply) : (State.withReply r s).run = s.run := rfl
@[simp] theorem withReply_cause (r : Reply) : (State.withReply r s).cause = s.cause := rfl
@[simp] theorem withReply_outCount (r : Reply) : (State.withReply r s).outCount = s.outCount := rfl
@[simp] theorem withReply_out (r : Reply) : (State.withReply r s).out = s.out := rfl
@[simp] theorem withReply_seg (r : Reply) : (State.withReply r s).seg = s.seg := rfl
@[simp] theorem withReply_pc (r : Reply) : (State.withReply r s).pc = s.pc := rfl
@[simp] theorem withReply_bitmem (r : Reply) : (State.withReply r s).bitmem = s.bitmem := rfl
@[simp] theorem withReply_bitmemDepth (r : Reply) : (State.withReply r s).bitmemDepth = s.bitmemDepth := rfl
@[simp] theorem withReply_agenda (r : Reply) : (State.withReply r s).agenda = s.agenda := rfl
@[simp] theorem withReply_reply (r : Reply) : (State.withReply r s).reply = r := rfl

@[simp] theorem outAppendPair_cfg (v : Int) : (outAppendPair v s).cfg = s.cfg := rfl
@[simp] theorem outAppendPair_run (v : Int) : (outAppendPair v s).run = s.run := rfl
@[simp] theorem outAppendPair_cause (v : Int) : (outAppendPair v s).cause = s.cause := rfl
@[simp] theorem outAppendPair_outCount (v : Int) : (outAppendPair v s).outCount = s.outCount + 2 := rfl
@[simp] theorem outAppendPair_out (v : Int) : (outAppendPair v s).out = s.out ++ pairBytes v := rfl
@[simp] theorem outAppendPair_seg (v : Int) : (outAppendPair v s).seg = s.seg := rfl
@[simp] theorem outAppendPair_pc (v : Int) : (outAppendPair v s).pc = s.pc := rfl
@[simp] theorem outAppendPair_bitmem (v : Int) : (outAppendPair v s).bitmem = s.bitmem := rfl
@[simp] theorem outAppendPair_bitmemDepth (v : Int) : (outAppendPair v s).bitmemDepth = s.bitmemDepth := rfl
@[simp] theorem outAppendPair_agenda (v : Int) : (outAppendPair v s).agenda = s.agenda := rfl
@[simp] theorem outAppendPair_reply (v : Int) : (outAppendPair v s).reply = s.reply := rfl

@[simp] theorem clearOut_cfg : (clearOut s).cfg = s.cfg := rfl
@[simp] theorem clearOut_run : (clearOut s).run = s.run := rfl
@[simp] theorem clearOut_cause : (clearOut s).cause = s.cause := rfl
@[simp] theorem clearOut_outCount : (clearOut s).outCount = 0 := rfl
@[simp] theorem clearOut_out : (clearOut s).out = [] := rfl
@[simp] theorem clearOut_seg : (clearOut s).seg = s.seg := rfl
@[simp] theorem clearOut_pc : (clearOut s).pc = s.pc := rfl
@[simp] theorem clearOut_bitmem : (clearOut s).bitmem = s.bitmem := rfl
@[simp] theorem clearOut_bitmemDepth : (clearOut s).bitmemDepth = s.bitmemDepth := rfl
@[simp] theorem clearOut_agenda : (clearOut s).agenda = s.agenda := rfl
@[simp] theorem clearOut_reply : (clearOut s).reply = s.reply := rfl

@[simp] theorem loadSegment_cfg (g : Segment) : (loadSegment g s).cfg = s.cfg := rfl
@[simp] theorem loadSegment_run (g : Segment) : (loadSegment g s).run = s.run := rfl
@[simp] theorem loadSegment_cause (g : Segment) : (loadSegment g s).cause = s.cause := rfl
@[simp] theorem loadSegment_outCount (g : Segment) : (loadSegment g s).outCount = s.outCount := rfl
@[simp] theorem loadSegment_out (g : Segment) : (loadSegment g s).out = s.out := rfl
@[simp] theorem loadSegment_seg (g : Segment) : (loadSegment g s).seg = ⟨g.kind, g.n, 0⟩ := rfl
@[simp] theorem loadSegment_pc (g : Segment) : (loadSegment g s).pc = s.pc := rfl
@[simp] theorem loadSegment_bitmem (g : Segment) : (loadSegment g s).bitmem = s.bitmem := rfl
@[simp] theorem loadSegment_bitmemDepth (g : Segment) : (loadSegment g s).bitmemDepth = s.bitmemDepth := rfl
@[simp] theorem loadSegment_agenda (g : Segment) : (loadSegment g s).agenda = s.agenda := rfl
@[simp] theorem loadSegment_reply (g : Segment) : (loadSegment g s).reply = s.reply := rfl

@[simp] theorem raiseDomainError_cfg (c : Cause) : (raiseDomainError c s).cfg = s.cfg := rfl
@[simp] theorem raiseDomainError_run (c : Cause) : (raiseDomainError c s).run = .fault := rfl
@[simp] theorem raiseDomainError_cause (c : Cause) : (raiseDomainError c s).cause = c := rfl
@[simp] theorem raiseDomainError_outCount (c : Cause) : (raiseDomainError c s).outCount = s.outCount := rfl
@[simp] theorem raiseDomainError_out (c : Cause) : (raiseDomainError c s).out = s.out := rfl
@[simp] theorem raiseDomainError_seg (c : Cause) : (raiseDomainError c s).seg = s.seg := rfl
@[simp] theorem raiseDomainError_pc (c : Cause) : (raiseDomainError c s).pc = s.pc := rfl
@[simp] theorem raiseDomainError_bitmem (c : Cause) : (raiseDomainError c s).bitmem = s.bitmem := rfl
@[simp] theorem raiseDomainError_bitmemDepth (c : Cause) : (raiseDomainError c s).bitmemDepth = s.bitmemDepth := rfl
@[simp] theorem raiseDomainError_agenda (c : Cause) : (raiseDomainError c s).agenda = s.agenda := rfl
@[simp] theorem raiseDomainError_reply (c : Cause) : (raiseDomainError c s).reply = s.reply := rfl

@[simp] theorem beginRun_cfg : (beginRun s).cfg = s.cfg := rfl
@[simp] theorem beginRun_run : (beginRun s).run = .busy := rfl
@[simp] theorem beginRun_cause : (beginRun s).cause = s.cause := rfl
@[simp] theorem beginRun_outCount : (beginRun s).outCount = s.outCount := rfl
@[simp] theorem beginRun_out : (beginRun s).out = s.out := rfl
@[simp] theorem beginRun_seg : (beginRun s).seg = ⟨.sil, (edgeSegment s.cfg).n, 0⟩ := rfl
@[simp] theorem beginRun_pc : (beginRun s).pc = .start := rfl
@[simp] theorem beginRun_bitmem : (beginRun s).bitmem = s.bitmem := rfl
@[simp] theorem beginRun_bitmemDepth : (beginRun s).bitmemDepth = s.bitmemDepth := rfl
@[simp] theorem beginRun_agenda : (beginRun s).agenda = s.agenda := rfl
@[simp] theorem beginRun_reply : (beginRun s).reply = s.reply := rfl

@[simp] theorem resetState_cfg : (resetState s).cfg = .reset := rfl
@[simp] theorem resetState_run : (resetState s).run = .idle := rfl
@[simp] theorem resetState_cause : (resetState s).cause = .none := rfl
@[simp] theorem resetState_outCount : (resetState s).outCount = 0 := rfl
@[simp] theorem resetState_out : (resetState s).out = [] := rfl
@[simp] theorem resetState_seg : (resetState s).seg = ⟨.sil, 0, 0⟩ := rfl
@[simp] theorem resetState_pc : (resetState s).pc = .start := rfl
@[simp] theorem resetState_bitmem : (resetState s).bitmem = s.bitmem := rfl
@[simp] theorem resetState_bitmemDepth : (resetState s).bitmemDepth = s.bitmemDepth := rfl
@[simp] theorem resetState_agenda : (resetState s).agenda = s.agenda := rfl
@[simp] theorem resetState_reply : (resetState s).reply = s.reply := rfl

@[simp] theorem emitPair_cfg : (emitPair s).cfg = s.cfg := rfl
@[simp] theorem emitPair_run : (emitPair s).run = s.run := rfl
@[simp] theorem emitPair_cause : (emitPair s).cause = s.cause := rfl
@[simp] theorem emitPair_outCount : (emitPair s).outCount = s.outCount + 2 := rfl
@[simp] theorem emitPair_out : (emitPair s).out = s.out ++ pairBytes (currentSample s) := rfl
@[simp] theorem emitPair_seg : (emitPair s).seg = ⟨s.seg.kind, s.seg.n, s.seg.idx + 1⟩ := rfl
@[simp] theorem emitPair_pc : (emitPair s).pc = s.pc := rfl
@[simp] theorem emitPair_bitmem : (emitPair s).bitmem = s.bitmem := rfl
@[simp] theorem emitPair_bitmemDepth : (emitPair s).bitmemDepth = s.bitmemDepth := rfl
@[simp] theorem emitPair_agenda : (emitPair s).agenda = s.agenda := rfl
@[simp] theorem emitPair_reply : (emitPair s).reply = s.reply := rfl

@[simp] theorem planSymbol_cfg (c : SymbolKind) : (planSymbol c s).cfg = s.cfg := rfl
@[simp] theorem planSymbol_run (c : SymbolKind) : (planSymbol c s).run = s.run := rfl
@[simp] theorem planSymbol_cause (c : SymbolKind) : (planSymbol c s).cause = s.cause := rfl
@[simp] theorem planSymbol_outCount (c : SymbolKind) : (planSymbol c s).outCount = s.outCount := rfl
@[simp] theorem planSymbol_out (c : SymbolKind) : (planSymbol c s).out = s.out := rfl
@[simp] theorem planSymbol_seg (c : SymbolKind) : (planSymbol c s).seg = ⟨(segmentOf s.cfg c s.pc.seg).kind, (segmentOf s.cfg c s.pc.seg).n, 0⟩ := rfl
@[simp] theorem planSymbol_pc (c : SymbolKind) : (planSymbol c s).pc = s.pc := rfl
@[simp] theorem planSymbol_bitmem (c : SymbolKind) : (planSymbol c s).bitmem = s.bitmem := rfl
@[simp] theorem planSymbol_bitmemDepth (c : SymbolKind) : (planSymbol c s).bitmemDepth = s.bitmemDepth := rfl
@[simp] theorem planSymbol_agenda (c : SymbolKind) : (planSymbol c s).agenda = s.agenda := rfl
@[simp] theorem planSymbol_reply (c : SymbolKind) : (planSymbol c s).reply = s.reply := rfl

end Sys2Proof.Machine
end

