-- ==== Sys2Proof/Laws/Ops.lean ====
section
/-! SUPPORT. What each shared operation does, once: the loop of a segment, a whole segment, a whole symbol. -/

namespace Sys2Proof.Machine

@[simp] theorem length_pairBytes (v : Int) : (pairBytes v).length = 2 := rfl

/-- The sample of local index `i` in a segment of a kind (R112). -/
def segmentSample (cfg : ConfigRegs) (kind : SegKind) (i : Nat) : Int :=
  match kind with
  | .wav => waveSample cfg i
  | .sil => 0

/-- Below `SEG_N` the increment of `I_IDX` does not wrap. -/
theorem idx_succ {r : SegRegs} (h : r.idx.toNat < r.n.toNat) : (r.idx + 1).toNat = r.idx.toNat + 1 := by
  have := r.n.isLt
  rw [BitVec.toNat_add]
  exact Nat.mod_eq_of_lt (by show r.idx.toNat + 1 < 2 ^ 45; omega)

theorem currentSample_eq (s : State) :
    currentSample s = segmentSample s.cfg s.seg.kind s.seg.idx.toNat := by
  unfold currentSample segmentSample; cases s.seg.kind <;> rfl

/-- Every segment is a list of pairs, one for each local index. -/
theorem segmentBytes_eq (cfg : ConfigRegs) (g : Segment) :
    segmentBytes cfg g =
      (List.range g.n.toNat).flatMap fun i => pairBytes (segmentSample cfg g.kind i) := by
  obtain ⟨kind, n⟩ := g
  cases kind with
  | wav => rfl
  | sil =>
    simp only [segmentBytes, silBytes, segmentSample]
    induction n.toNat with
    | zero => rfl
    | succ m ih =>
      rw [List.range_succ, List.flatMap_append, ← ih, Nat.mul_succ, List.replicate_add]
      rfl

theorem length_flatMap_pairBytes {α : Type} (l : List α) (f : α → Int) :
    (l.flatMap fun a => pairBytes (f a)).length = 2 * l.length := by
  induction l with
  | nil => rfl
  | cons a l ih => simp [ih]; omega

theorem drop_flatMap_pairBytes {α : Type} (l : List α) (f : α → Int) (i : Nat) :
    (l.flatMap fun a => pairBytes (f a)).drop (2 * i) = (l.drop i).flatMap fun a => pairBytes (f a) := by
  induction i generalizing l with
  | zero => rfl
  | succ i ih =>
    cases l with
    | nil => simp
    | cons a l =>
      rw [List.flatMap_cons, Nat.mul_succ, Nat.add_comm, List.drop_append, List.drop_succ_cons]
      simp [ih]

@[simp] theorem length_segmentBytes (cfg : ConfigRegs) (g : Segment) :
    (segmentBytes cfg g).length = 2 * g.n.toNat := by
  rw [segmentBytes_eq, length_flatMap_pairBytes, List.length_range]

theorem segmentRest_eq (s : State) :
    segmentRest s = ((List.range s.seg.n.toNat).drop s.seg.idx.toNat).flatMap
      fun i => pairBytes (segmentSample s.cfg s.seg.kind i) := by
  rw [segmentRest, segmentBytes_eq, drop_flatMap_pairBytes]

/-- Inside a segment the rest begins with the current pair, and `emitPair` takes it off. -/
theorem segmentRest_eq_cons (s : State) (h : s.seg.idx.toNat < s.seg.n.toNat) :
    segmentRest s = pairBytes (currentSample s) ++ segmentRest (emitPair s) := by
  rw [segmentRest_eq, segmentRest_eq, emitPair_seg, emitPair_cfg, idx_succ h,
    List.drop_eq_getElem_cons (by simpa using h), List.flatMap_cons, currentSample_eq]
  simp

/-- At the end of a segment nothing is left of it. -/
theorem segmentRest_eq_nil (s : State) (h : s.seg.n.toNat ≤ s.seg.idx.toNat) : segmentRest s = [] := by
  rw [segmentRest_eq, List.drop_eq_nil_of_le (by simpa using h), List.flatMap_nil]

/-- The whole of what the loop of a segment does (R102, R103). -/
theorem iterate_emitPair (k : Nat) (s : State) (h : s.seg.n.toNat = s.seg.idx.toNat + k) :
    emitPair^[k] s =
      { s with
        out := s.out ++ segmentRest s
        outCount := s.outCount + BitVec.ofNat 64 (2 * k)
        seg := { s.seg with idx := s.seg.n } } := by
  induction k generalizing s with
  | zero =>
    have : s.seg.n = s.seg.idx := BitVec.eq_of_toNat_eq (by omega)
    rw [Function.iterate_zero, id, segmentRest_eq_nil s (by omega), this]
    simp
  | succ k ih =>
    have hi := idx_succ (r := s.seg) (by omega)
    rw [Function.iterate_succ, Function.comp, ih (emitPair s) (by simp only [emitPair_seg, hi]; omega),
      segmentRest_eq_cons s (by omega)]
    have hc : s.outCount + 2 + BitVec.ofNat 64 (2 * k) = s.outCount + BitVec.ofNat 64 (2 * (k + 1)) := by
      rw [Nat.mul_succ, BitVec.ofNat_add, add_assoc, add_comm (2 : BitVec 64)]
      rfl
    simp only [emitPair_outCount, hc, emitPair_out, List.append_assoc]
    rfl

/-- The rest of a segment, from `I_IDX` to its end. -/
theorem finishSegment_eq (s : State) (h : s.seg.idx.toNat ≤ s.seg.n.toNat) :
    finishSegment s =
      { s with
        out := s.out ++ segmentRest s
        outCount := s.outCount + BitVec.ofNat 64 (2 * (s.seg.n.toNat - s.seg.idx.toNat))
        seg := { s.seg with idx := s.seg.n } } :=
  iterate_emitPair _ s (by omega)

/-- A whole segment: its bytes are appended, the count grows with them, and the segment registers hold it,
exhausted. -/
theorem executeSegment_eq (g : Segment) (s : State) :
    executeSegment g s =
      { s with
        out := s.out ++ segmentBytes s.cfg g
        outCount := s.outCount + BitVec.ofNat 64 (2 * g.n.toNat)
        seg := ⟨g.kind, g.n, g.n⟩ } := by
  rw [executeSegment, finishSegment_eq _ (by simp)]
  simp [segmentRest, State.withSeg, loadSegment]

/-- A whole symbol: the bytes of both segments, in order (R91 to R94). -/
theorem executeSymbol_eq (c : SymbolKind) (s : State) :
    executeSymbol c s =
      { s with
        out := s.out ++ symbolBytes s.cfg c
        outCount := s.outCount + BitVec.ofNat 64
          (2 * ((segmentOf s.cfg c 0).n.toNat + (segmentOf s.cfg c 1).n.toNat))
        seg := ⟨(segmentOf s.cfg c 1).kind, (segmentOf s.cfg c 1).n, (segmentOf s.cfg c 1).n⟩
        pc := { s.pc with seg := 1 } } := by
  simp only [executeSymbol, executeSegment_eq, State.withPc, symbolBytes]
  simp [Nat.mul_add, BitVec.ofNat_add, add_assoc]

/-! ### `START` -/

/-- Everything `START` does (R129, R145). -/
theorem execStart_cases (s : State) :
    (gateOpen s.run = false ∧ execStart s = .next s) ∨
    (gateOpen s.run = true ∧ validate s.cfg s.bitmemDepth = .none ∧
      execStart s = .next (beginRun (clearOut s))) ∨
    (gateOpen s.run = true ∧ ∃ c, c ≠ .none ∧ validate s.cfg s.bitmemDepth = c ∧
      execStart s = .next (raiseDomainError c (clearOut s))) := by
  cases hg : gateOpen s.run
  · exact .inl ⟨rfl, by simp [execStart, hg]⟩
  · cases hv : validate s.cfg s.bitmemDepth <;> simp [execStart, hg, hv]

/-! ### Loads -/

/-- The instruction of a character plans the symbol of its bit (R70 to R72). -/
theorem exec_decodeChar (ch : Byte) (s : State) :
    exec (decodeChar ch) s = .next (planSymbol (symbolOfBit (bitOf ch)) s) := by
  unfold decodeChar bitOf
  split_ifs <;> rfl

/-- The instruction of a symbol's code executes that symbol (R57, R91 to R94). -/
theorem exec_decodeSym (c : SymbolKind) (s : State) :
    exec (decodeSym (symbolCode c)) s = .next (executeSymbol c s) := by
  cases c <;> rfl

/-- The instruction of a descriptor executes that segment (R58, R102, R103). -/
theorem exec_decodeSeg (r : SegRegs) (s : State) :
    exec (decodeSeg (segWord r)) s = .next (executeSegment ⟨r.kind, r.n⟩ s) := by
  obtain ⟨kind, n, idx⟩ := r
  have hx : ∀ b : BitVec 1, (b ++ n : BitVec 46).extractLsb' 0 45 = n := by
    intro b; ext i hi; rw [BitVec.getElem_extractLsb', Nat.zero_add, BitVec.getLsbD_append, if_pos hi,
      BitVec.getLsbD_eq_getElem hi]
  have hb : ∀ b : BitVec 1, (b ++ n : BitVec 46).getLsbD 45 = b.getLsbD 0 := by
    intro b; rw [BitVec.getLsbD_append]; simp
  cases kind <;> simp only [decodeSeg, segWord, kindBit, hx, hb] <;> rfl

/-- The load for a position puts its segment into the segment registers and does nothing else (R111). -/
theorem loadPosition_eq (s : State) :
    loadPosition s = .next (loadSegment (positionSegment s.cfg s.bitmem s.pc) s) := by
  unfold loadPosition positionSegment curSymbol
  cases h : s.pc.ph
  · rfl
  · rfl
  · simp only [reduceCtorEq, if_false]
    split_ifs with h1
    · rw [exec_decodeChar]; rfl
    · rfl
  · rfl

/-- The advance branch of the core's step (R112). -/
theorem advanceStep_eq (s : State) :
    advanceStep s =
      if s.pc.ph = .trail then .next (s.withRun .done)
      else .next (loadSegment (positionSegment s.cfg s.bitmem (advance s.cfg s.pc))
        (s.withPc (advance s.cfg s.pc))) := by
  unfold advanceStep
  split_ifs with h
  · rfl
  · rw [loadPosition_eq]; rfl

end Sys2Proof.Machine
end

