-- ==== Sys2Proof/Laws/PerInstr.lean ====
section
/-! SUPPORT. One lemma per instruction: its encoding matches its row of spec/opcode_table.json. -/

namespace Sys2Proof.Laws.TableRow

/-- The `mask` and `match` of an instruction's row of spec/opcode_table.json. -/
def row : Instr → Nat × Nat
  | .bit1 => (0xFF, 0x31)
  | .bit0 => (0xFF, 0x30)
  | .bitx _ => (0x00, 0x00)
  | .l0 => (0x3, 0x0)
  | .l1 => (0x3, 0x1)
  | .hdr => (0x3, 0x2)
  | .gap => (0x3, 0x3)
  | .sil _ => (0x200000000000, 0x000000000000)
  | .wav _ => (0x200000000000, 0x200000000000)
  | .nop => (0x3, 0x0)
  | .start => (0x3, 0x1)
  | .reset _ => (0x2, 0x2)

/-- The encoding, under the row's mask, is the row's match. -/
def Statement (i : Instr) : Prop :=
  encode i &&& BitVec.ofNat i.format.width (row i).1 = BitVec.ofNat i.format.width (row i).2

theorem bit1 : Statement .bit1 := by unfold Statement; decide

theorem bit0 : Statement .bit0 := by unfold Statement; decide

theorem bitx (ch : Byte) : Statement (.bitx ch) := BitVec.and_zero

theorem l0 : Statement .l0 := by unfold Statement; decide

theorem l1 : Statement .l1 := by unfold Statement; decide

theorem hdr : Statement .hdr := by unfold Statement; decide

theorem gap : Statement .gap := by unfold Statement; decide

/-- A descriptor under the mask of its `KIND` bit (R58). -/
theorem kind_masked (b : BitVec 1) (n : Count) :
    (b ++ n : BitVec 46) &&& BitVec.ofNat 46 0x200000000000 = b ++ 0#45 := by
  have : BitVec.ofNat 46 0x200000000000 = 1#1 ++ 0#45 := by decide
  have hb : b &&& 1#1 = b := by
    revert b
    decide
  rw [this, BitVec.and_append, hb, BitVec.and_zero]

theorem sil (n : Count) : Statement (.sil n) := by
  have : (0#1 ++ 0#45 : BitVec 46) = BitVec.ofNat 46 0x000000000000 := by decide
  exact (kind_masked 0#1 n).trans this

theorem wav (n : Count) : Statement (.wav n) := by
  have : (1#1 ++ 0#45 : BitVec 46) = BitVec.ofNat 46 0x200000000000 := by decide
  exact (kind_masked 1#1 n).trans this

theorem nop : Statement .nop := by unfold Statement; decide

theorem start : Statement .start := by unfold Statement; decide

theorem reset (startBit : BitVec 1) : Statement (.reset startBit) := by
  revert startBit
  unfold Statement
  decide

end Sys2Proof.Laws.TableRow
end

