-- ==== Sys2Proof/Laws/Sequencer.lean ====
section
/-! SUPPORT. What a step of the core and a fused turn of it can do, once. -/

namespace Sys2Proof.Machine

@[simp] theorem nextEq_iff {s t : State} :
    ((.next s : Host.Outcome State Fault Refusal) = .next t) ↔ s = t :=
  ⟨fun h => by cases h; rfl, fun h => h ▸ rfl⟩

/-- The advance branch of the core's step, once it has an answer. -/
theorem advanceStep_cases {s t : State} (h : advanceStep s = .next t) :
    (s.pc.ph = .trail ∧ t = s.withRun .done) ∨
    (s.pc.ph ≠ .trail ∧
      t = loadSegment (positionSegment s.cfg s.bitmem (advance s.cfg s.pc))
        (s.withPc (advance s.cfg s.pc))) := by
  rw [advanceStep_eq] at h
  split_ifs at h with h1
  · exact .inl ⟨h1, (nextEq_iff.1 h).symm⟩
  · exact .inr ⟨h1, (nextEq_iff.1 h).symm⟩

/-- A step of the core: one pair, one advance with its load, or the end of the run (R112). -/
theorem coreStep_cases {s t : State} (h : coreStep s = .next t) :
    s.run = .busy ∧
    ((s.seg.idx.toNat < s.seg.n.toNat ∧ t = emitPair s) ∨
      (s.seg.n.toNat ≤ s.seg.idx.toNat ∧ s.pc.ph = .trail ∧ t = s.withRun .done) ∨
      (s.seg.n.toNat ≤ s.seg.idx.toNat ∧ s.pc.ph ≠ .trail ∧
        t = loadSegment (positionSegment s.cfg s.bitmem (advance s.cfg s.pc))
          (s.withPc (advance s.cfg s.pc)))) := by
  unfold coreStep at h
  split_ifs at h with hb hi
  · exact ⟨hb, .inl ⟨hi, (nextEq_iff.1 h).symm⟩⟩
  · rcases advanceStep_cases h with h | h
    · exact ⟨hb, .inr (.inl ⟨by omega, h⟩)⟩
    · exact ⟨hb, .inr (.inr ⟨by omega, h⟩)⟩

/-- What no step of the core writes, and how it leaves `OUT` and `RUN`. -/
structure CoreFrame (s t : State) : Prop where
  cfg : t.cfg = s.cfg
  bitmem : t.bitmem = s.bitmem
  bitmemDepth : t.bitmemDepth = s.bitmemDepth
  agenda : t.agenda = s.agenda
  reply : t.reply = s.reply
  cause : t.cause = s.cause
  run : t.run = s.run ∨ t.run = .done
  out : ∃ more : List Byte, t.out = s.out ++ more ∧ more.length % 2 = 0

theorem CoreFrame.refl (s : State) : CoreFrame s s :=
  ⟨rfl, rfl, rfl, rfl, rfl, rfl, .inl rfl, [], by simp, rfl⟩

theorem CoreFrame.trans {s t u : State} (h : CoreFrame s t) (h' : CoreFrame t u) : CoreFrame s u := by
  obtain ⟨m, hm, hm2⟩ := h.out
  obtain ⟨m', hm', hm2'⟩ := h'.out
  refine ⟨h'.cfg.trans h.cfg, h'.bitmem.trans h.bitmem, h'.bitmemDepth.trans h.bitmemDepth,
    h'.agenda.trans h.agenda, h'.reply.trans h.reply, h'.cause.trans h.cause, ?_,
    m ++ m', by rw [hm', hm, List.append_assoc], by rw [List.length_append]; omega⟩
  rcases h'.run with e | e
  · rw [e]; exact h.run
  · exact .inr e

theorem emitPair_frame (s : State) : CoreFrame s (emitPair s) :=
  ⟨rfl, rfl, rfl, rfl, rfl, rfl, .inl rfl, pairBytes (currentSample s), rfl, by simp⟩

theorem loadSegment_frame (g : Segment) (s : State) : CoreFrame s (loadSegment g s) :=
  ⟨rfl, rfl, rfl, rfl, rfl, rfl, .inl rfl, [], by simp, rfl⟩

theorem withPc_frame (p : SeqPos) (s : State) : CoreFrame s (s.withPc p) :=
  ⟨rfl, rfl, rfl, rfl, rfl, rfl, .inl rfl, [], by simp, rfl⟩

theorem finishSegment_frame (s : State) : CoreFrame s (finishSegment s) := by
  unfold finishSegment
  induction s.seg.n.toNat - s.seg.idx.toNat generalizing s with
  | zero => exact .refl s
  | succ k ih => exact (emitPair_frame s).trans (ih (emitPair s))

theorem advanceStep_frame {s t : State} (h : advanceStep s = .next t) : CoreFrame s t := by
  rcases advanceStep_cases h with ⟨_, rfl⟩ | ⟨_, rfl⟩
  · exact ⟨rfl, rfl, rfl, rfl, rfl, rfl, .inr rfl, [], by simp, rfl⟩
  · exact (withPc_frame _ s).trans (loadSegment_frame _ _)

theorem coreStep_frame {s t : State} (h : coreStep s = .next t) : CoreFrame s t := by
  unfold coreStep at h
  split_ifs at h
  · rw [nextEq_iff] at h; exact h ▸ emitPair_frame s
  · exact advanceStep_frame h

theorem executeSegment_frame (g : Segment) (s : State) : CoreFrame s (executeSegment g s) :=
  (loadSegment_frame g s).trans (finishSegment_frame _)

theorem executeSymbol_frame (c : SymbolKind) (s : State) : CoreFrame s (executeSymbol c s) :=
  (((withPc_frame _ s).trans (executeSegment_frame _ _)).trans (withPc_frame _ _)).trans
    (executeSegment_frame _ _)

/-- A fused turn: the instruction the core is at, or the rest of its segment, and the advance out of it. -/
theorem coreInstr_cases {s t : State} (h : coreInstr s = .next t) :
    s.run = .busy ∧ ∃ u, advanceStep u = .next t ∧
      ((s.seg.idx = 0 ∧ (s.pc.ph = .header ∨ s.pc.ph = .block) ∧ s.pc.seg = 0 ∧
          u = executeSymbol (curSymbol s.cfg s.bitmem s.pc) s) ∨
        (s.seg.idx = 0 ∧ ¬((s.pc.ph = .header ∨ s.pc.ph = .block) ∧ s.pc.seg = 0) ∧
          u = executeSegment ⟨s.seg.kind, s.seg.n⟩ s) ∨
        (s.seg.idx ≠ 0 ∧ u = finishSegment s)) := by
  unfold coreInstr fetchInstr at h
  split_ifs at h with hb h0 h1
  · exact ⟨hb, _, h, .inr (.inr ⟨h0, rfl⟩)⟩
  · simp only [exec_decodeSym] at h
    exact ⟨hb, _, h, .inl ⟨not_not.1 h0, h1.1, h1.2, rfl⟩⟩
  · simp only [exec_decodeSeg] at h
    exact ⟨hb, _, h, .inr (.inl ⟨not_not.1 h0, h1, rfl⟩)⟩

theorem coreInstr_frame {s t : State} (h : coreInstr s = .next t) : CoreFrame s t := by
  obtain ⟨-, u, hu, ⟨-, -, -, rfl⟩ | ⟨-, -, rfl⟩ | ⟨-, rfl⟩⟩ := coreInstr_cases h
  · exact (executeSymbol_frame _ s).trans (advanceStep_frame hu)
  · exact (executeSegment_frame _ s).trans (advanceStep_frame hu)
  · exact (finishSegment_frame s).trans (advanceStep_frame hu)

end Sys2Proof.Machine
end

