-- ==== Sys2Proof/Laws/Step.lean ====
section
/-! SUPPORT. Everything one step of the machine can do, once. -/

namespace Sys2Proof.Machine

/-- What an operation of the host can do. -/
theorem hostStep_cases {op : HostOp} {s t : State} (h : hostStep op s = .next t) :
    t = s ∨ (∃ r, t = s.withReply r) ∨ t = resetState s ∨
    (gateOpen s.run = true ∧ ∃ c, t = s.withCfg c) ∨
    (gateOpen s.run = true ∧ ∃ k ch, k < s.bitmemDepth.toNat ∧ t = s.withBitmem (memWrite k ch s.bitmem)) ∨
    (gateOpen s.run = true ∧ validate s.cfg s.bitmemDepth = .none ∧ t = beginRun (clearOut s)) ∨
    (gateOpen s.run = true ∧ ∃ c, c ≠ .none ∧ validate s.cfg s.bitmemDepth = c ∧
      t = raiseDomainError c (clearOut s)) := by
  cases op with
  | regWrite num v =>
    have h : hostRegWrite num v s = .next t := h
    unfold hostRegWrite decodeCtrl at h
    split at h
    · split_ifs at h
      · exact .inr (.inr (.inl (nextEq_iff.1 h).symm))
      · have h : execStart s = .next t := h
        rcases execStart_cases s with ⟨_, e⟩ | ⟨g, hv, e⟩ | ⟨g, c, hc, hv, e⟩ <;>
          rw [e, nextEq_iff] at h <;> subst h <;> simp_all
      · exact .inl (nextEq_iff.1 h).symm
    · split_ifs at h with hg <;> rw [nextEq_iff] at h <;> subst h
      · exact .inr (.inr (.inr (.inl ⟨hg, _, rfl⟩)))
      · exact .inl rfl
    · exact .inl (nextEq_iff.1 h).symm
  | regRead num => exact .inr (.inl ⟨_, (nextEq_iff.1 h).symm⟩)
  | bitWrite k ch =>
    have h : hostBitWrite k ch s = .next t := h
    unfold hostBitWrite at h
    split_ifs at h with hg <;> rw [nextEq_iff] at h <;> subst h
    · exact .inr (.inr (.inr (.inr (.inl ⟨hg.2, k, ch, hg.1, rfl⟩))))
    · exact .inl rfl
  | outRead j =>
    have h : hostOutRead j s = .next t := h
    unfold hostOutRead at h
    split at h <;> exact .inr (.inl ⟨_, (nextEq_iff.1 h).symm⟩)

/-- The state in which a turn is taken: the agenda without it. -/
def atTurn (s : State) : State := s.withAgenda s.agenda.tail

/-- What a step can do: wait for the host, a step of the core, a fused turn of the core, an operation of the host, or
the hardware reset. -/
theorem step_cases {s t : State} (h : step s = .next t) :
    (s.agenda = [] ∧ s.run ≠ .busy ∧ t = s) ∨ coreStep (atTurn s) = .next t ∨
    coreInstr (atTurn s) = .next t ∨ (∃ op, hostStep op (atTurn s) = .next t) ∨
    t = resetState (atTurn s) := by
  unfold step at h
  split at h
  · next ha =>
    have e : atTurn s = s := by unfold atTurn; rw [ha, List.tail_nil, ← ha]; rfl
    unfold silentHost at h
    split_ifs at h with hb
    · exact .inr (.inl (by rw [e]; exact h))
    · exact .inl ⟨ha, hb, (nextEq_iff.1 h).symm⟩
  · next a rest ha =>
    have e : s.withAgenda rest = atTurn s := by unfold atTurn; rw [ha, List.tail_cons]
    rw [e] at h
    cases a with
    | coreStep => exact .inr (.inl h)
    | coreInstr => exact .inr (.inr (.inl h))
    | host op => exact .inr (.inr (.inr (.inl ⟨op, h⟩)))
    | hardwareReset => exact .inr (.inr (.inr (.inr (nextEq_iff.1 h).symm)))

end Sys2Proof.Machine
end

