-- ==== Sys2Proof/Laws/WholeRun.lean ====
section
/-! SUPPORT. Lengths and bytes of the whole run, the beginning of a run, legal streams, and runs of core steps. -/

namespace Sys2Proof.Machine

/-- A sample count of 32-bit operands fits 45 bits (R88). -/
theorem nsamp_lt (fs us : BitVec 32) : nsamp fs.toNat us.toNat < 2 ^ 45 := by
  have := Nat.mul_le_mul (Nat.le_of_lt_succ fs.isLt) (Nat.le_of_lt_succ us.isLt)
  rw [nsamp, Nat.div_lt_iff_lt_mul (by norm_num)]
  omega

/-- The count of an edge silence is loaded as it is. -/
theorem edgeSegment_n (cfg : ConfigRegs) : (edgeSegment cfg).n.toNat = edgePairs cfg := by
  have := nsamp_lt cfg.sampleRate 500#32
  rw [edgeSegment, countOf, BitVec.toNat_ofNat]
  exact Nat.mod_eq_of_lt this

/-- The two segments of a symbol are its `w(c)` pairs (R95). -/
theorem segmentOf_pairs (cfg : ConfigRegs) (c : SymbolKind) :
    (segmentOf cfg c 0).n.toNat + (segmentOf cfg c 1).n.toNat = symbolPairs cfg c := by
  have key : ∀ us : BitVec 32, (countOf cfg us.toNat).toNat = nsamp cfg.sampleRate.toNat us.toNat :=
    fun us => by rw [countOf, BitVec.toNat_ofNat]; exact Nat.mod_eq_of_lt (nsamp_lt _ us)
  unfold segmentOf symbolPairs
  have h10 : ¬ (1 : BitVec 1) = 0 := by decide
  by_cases hf : (profileOf cfg c).highFirst = 1
  · simp only [if_pos hf, if_true, if_neg h10, key]
  · simp only [if_neg hf, if_true, if_neg h10, key, Nat.add_comm]

theorem length_symbolBytes (cfg : ConfigRegs) (c : SymbolKind) :
    (symbolBytes cfg c).length = 2 * symbolPairs cfg c := by
  rw [symbolBytes, List.length_append, length_segmentBytes, length_segmentBytes, ← segmentOf_pairs]
  omega

/-- The bytes of an edge silence (R114). -/
theorem segmentBytes_edgeSegment (cfg : ConfigRegs) :
    segmentBytes cfg (edgeSegment cfg) = silBytes (edgePairs cfg) := by
  have : segmentBytes cfg (edgeSegment cfg) = silBytes (edgeSegment cfg).n.toNat := rfl
  rw [this, edgeSegment_n]

/-! ### The beginning of a run -/

/-- An accepted `START` leaves the segment of its position in the segment registers. -/
theorem beginRun_loaded (s : State) :
    (⟨(beginRun s).seg.kind, (beginRun s).seg.n⟩ : Segment) =
      positionSegment (beginRun s).cfg (beginRun s).bitmem (beginRun s).pc := by
  simp only [beginRun_seg, beginRun_cfg, beginRun_pc, positionSegment, SeqPos.start]
  rfl

/-- After an accepted `START` all of `out(cfg, chs)` is still to come. -/
theorem beginRun_rest (s : State) :
    segmentRest (beginRun s) ++ laterBytes (beginRun s).cfg (beginRun s).bitmem (beginRun s).pc =
      runBytes s.cfg s.bitmem := by
  have e : segmentRest (beginRun s) = silBytes (edgePairs s.cfg) := by
    have : (⟨SegKind.sil, (edgeSegment s.cfg).n⟩ : Segment) = edgeSegment s.cfg := rfl
    simp [segmentRest, this, segmentBytes_edgeSegment]
  rw [e, beginRun_cfg, beginRun_bitmem, beginRun_pc, runBytes, List.append_assoc]
  rfl

/-! ### Legal streams -/

theorem legalStream_nil : LegalStream [] := ⟨[], by simp, rfl⟩

theorem segmentSample_legal (cfg : ConfigRegs) (kind : SegKind) (i : Nat) :
    Config.sampleMin ≤ segmentSample cfg kind i ∧ segmentSample cfg kind i ≤ Config.sampleMax := by
  cases kind <;> simp [segmentSample, waveSample, clamp, Config.sampleMin, Config.sampleMax]

theorem LegalStream.append_pair {out : List Byte} (h : LegalStream out) {v : Int}
    (h1 : Config.sampleMin ≤ v) (h2 : v ≤ Config.sampleMax) : LegalStream (out ++ pairBytes v) := by
  obtain ⟨l, hl, rfl⟩ := h
  refine ⟨l ++ [v], fun w hw => ?_, by simp⟩
  rcases List.mem_append.1 hw with hw | hw
  · exact hl w hw
  · exact List.mem_singleton.1 hw ▸ ⟨h1, h2⟩

/-! ### Runs of core steps -/

theorem coreSteps_add (j k : Nat) (s : State) :
    coreSteps (j + k) s = andThen (coreSteps j s) (coreSteps k) := by
  induction j generalizing s with
  | zero => rw [Nat.zero_add]; rfl
  | succ j ih =>
    rw [Nat.succ_add]
    simp only [coreSteps]
    cases coreStep s with
    | next t => exact ih t
    | fault _ => rfl
    | refused _ => rfl

/-- As many core steps as a segment has pairs left finish it. -/
theorem coreSteps_finishSegment (s : State) (hb : s.run = .busy) :
    coreSteps (s.seg.n.toNat - s.seg.idx.toNat) s = .next (finishSegment s) := by
  unfold finishSegment
  generalize h : s.seg.n.toNat - s.seg.idx.toNat = k
  induction k generalizing s with
  | zero => rfl
  | succ k ih =>
    have hi : s.seg.idx.toNat < s.seg.n.toNat := by omega
    rw [coreSteps, coreStep, if_pos hb, if_pos hi]
    exact ih (emitPair s) hb (by simp only [emitPair_seg, idx_succ hi]; omega)

/-- One more core step leaves it. -/
theorem coreSteps_advance (s : State) (hb : s.run = .busy) (h : s.seg.idx.toNat ≤ s.seg.n.toNat) :
    coreSteps (s.seg.n.toNat - s.seg.idx.toNat + 1) s = advanceStep (finishSegment s) := by
  rw [coreSteps_add, coreSteps_finishSegment s hb, finishSegment_eq s h]
  simp only [andThen, coreSteps, coreStep, hb, if_true, lt_irrefl, if_false]
  cases advanceStep _ <;> rfl

/-- Loading the segment that stands at its start in the segment registers changes nothing. -/
theorem loadSegment_self (s : State) (h : s.seg.idx = 0) : loadSegment ⟨s.seg.kind, s.seg.n⟩ s = s := by
  unfold loadSegment State.withSeg
  rw [← h]

end Sys2Proof.Machine
end

