-- ==== Sys2Proof/Tests/Slice0.lean ====
section
/-! SUPPORT. Tests. Expected values are those of spec/30_encoding.md and spec/95_test_vectors.md, named by their ids. A
theorem `test_meets_X` shows that what the statement `Obligations.X` assumes can be met. -/

namespace Sys2Proof.Tests

open Sys2Proof.Machine

/-! ### Small states -/

/-- The configuration of program P2. -/
def cfgP2 : ConfigRegs where
  sampleRate := 8000
  dataFreq := 1000
  numPhases := 2
  repeatCount := 2
  amplitude := 100
  nbits := 2
  logic0 := ⟨250, 750, 1⟩
  logic1 := ⟨750, 250, 0⟩
  header := ⟨1000, 500, 1⟩
  gap := ⟨375, 0⟩

/-- `IDLE`, loaded with program P2: "1x". -/
def ready : State := { State.reset with cfg := cfgP2, bitmem := [(0, 0x31), (1, 0x78)] }

/-- The same after a run. -/
def done : State := { ready with run := .done }

/-- `BUSY` at a position, with a segment in the segment registers. -/
def busyAt (pc : SeqPos) (seg : SegRegs) : State := { ready with run := .busy, pc := pc, seg := seg }

/-- `FAULT` with cause 3. -/
def faulted : State :=
  { ready with cfg := { cfgP2 with numPhases := 0 }, run := .fault, cause := .zeroNumPhases }

/-- The configuration of table T1. -/
def cfgT1 : ConfigRegs :=
  { ConfigRegs.reset with sampleRate := 10000, dataFreq := 1000, numPhases := 1, amplitude := 180 }

/-- The valid configuration of the fault vectors F1 to F9. -/
def cfgF : ConfigRegs := { cfgT1 with repeatCount := 1 }

/-- What an instruction appends to an empty `OUT` under a configuration. -/
def appended (cfg : ConfigRegs) (i : Instr) : Option (List Byte) :=
  (nextState? (exec i { State.reset with cfg := cfg })).map State.out

/-- What `RegRead(num)` returns after an operation of the host. -/
def readAfter (op : HostOp) (num : RegNumber) (s : State) : Option RegValue :=
  (nextState? (hostStep op s)).map fun t => regRead t num

/-- `STATUS` and `OUT_COUNT` after `START` in `IDLE` with a configuration. -/
def statusAfterStart (cfg : ConfigRegs) : Option (RegValue × RegValue) :=
  (nextState? (exec .start { State.reset with cfg := cfg })).map fun t => (regRead t 0x01, regRead t 0x02)

/-! ### Well-formedness: R56 -/

theorem test_illFormed_bitx_one : (Instr.bitx 0x31).wf = false := by decide

theorem test_illFormed_bitx_zero : (Instr.bitx 0x30).wf = false := by decide

theorem test_wellFormed_others :
    [Instr.bit1, .bit0, .bitx 0x78, .l0, .l1, .hdr, .gap, .sil 0, .wav 3, .nop, .start, .reset 0].all
      Instr.wf = true := by decide

/-! ### Decoding: words written out from R56, R57, R58, R62 -/

/-- B1 to B10. -/
theorem test_decode_char :
    [0b00110001#8, 0b00110000#8, 0b00110010#8, 0b00111001#8, 0b01111000#8, 0b00100000#8, 0b00000000#8,
      0b00000001#8, 0b10110001#8, 0b11111111#8].map decodeChar =
    [.bit1, .bit0, .bitx 0x32, .bitx 0x39, .bitx 0x78, .bitx 0x20, .bitx 0x00, .bitx 0x01, .bitx 0xB1,
      .bitx 0xFF] := by decide

theorem test_decode_sym :
    [0b00#2, 0b01#2, 0b10#2, 0b11#2].map decodeSym = [.l0, .l1, .hdr, .gap] := by decide

theorem test_decode_seg :
    decodeSeg 0b0000000000000000000000000000000000000000000101#46 = .sil 5 ∧
    decodeSeg 0b1000000000000000000000000000000000000000001010#46 = .wav 10 ∧
    decodeSeg 0b0111111111111111111111111111111111111111111111#46 = .sil 0x1FFFFFFFFFFF ∧
    decodeSeg 0b1100000000000000000000000000000000000000000000#46 = .wav 0x100000000000 := by decide

theorem test_decode_ctrl :
    [0b00#2, 0b01#2, 0b10#2, 0b11#2].map decodeCtrl = [.nop, .start, .reset 0, .reset 1] := by decide

theorem test_decodeBytes_rejects :
    (decodeBytes .char []).toOption = none ∧ (decodeBytes .sym [0x04]).toOption = none ∧
    (decodeBytes .seg [0, 0, 0, 0, 0, 0x40]).toOption = none ∧
    (decodeBytes .seg [5, 0, 0, 0, 0, 0x20]).toOption = some (.wav 5) ∧
    (decodeBytes .ctrl [0xFD]).toOption = some .start := by decide

theorem test_decodeTableWord :
    [decodeTableWord 8 0x31, decodeTableWord 8 0x30, decodeTableWord 8 0x78, decodeTableWord 8 0,
      decodeTableWord 8 3, decodeTableWord 48 7, decodeTableWord 48 0x200000000007] =
    [some .bit1, some .bit0, some (.bitx 0x78), some .l0, some .gap, some (.sil 7), some (.wav 7)] := by
  decide

/-! ### Sample counts, order, samples -/

/-- N1, N2, N6 to N11, N14, N17, N19. -/
theorem test_nsamp :
    [nsamp 2500000 1000, nsamp 100 500, nsamp 1000 500, nsamp 1000 499, nsamp 1000 1500, nsamp 1000 2500,
      nsamp 8000 437, nsamp 8000 438, nsamp 44100 1000, nsamp 48000 11, nsamp 4294967295 4294967295] =
    [2500, 0, 1, 0, 2, 3, 3, 4, 44, 1, 18446744065120] := by decide

/-- S1 to S4: the profiles are those of P2. -/
theorem test_segment_order :
    [segmentOf cfgP2 .header 0, segmentOf cfgP2 .header 1, segmentOf cfgP2 .logic0 0,
      segmentOf cfgP2 .logic0 1, segmentOf cfgP2 .logic1 0, segmentOf cfgP2 .logic1 1,
      segmentOf cfgP2 .gap 0, segmentOf cfgP2 .gap 1] =
    [⟨.wav, 8⟩, ⟨.sil, 4⟩, ⟨.wav, 2⟩, ⟨.sil, 6⟩, ⟨.sil, 2⟩, ⟨.wav, 6⟩, ⟨.sil, 3⟩, ⟨.wav, 0⟩] := by decide

/-- T1, T3b, T8 (irrational sines). -/
theorem test_carrier_irrational :
    [carrier 10000 1000 1 180 1, carrier 10000 1000 1 180 2, carrier 10000 1000 1 180 9,
      carrier 8000 1000 3 180 1, carrier 8000 1000 3 180 4, carrier 8000 1000 3 180 5,
      carrier 8000 1000 1 255 1, carrier 8000 1000 1 255 5] =
    [53, 86, -53, 23, -78, 87, 90, -90] := by decide

/-- T4, T5, T7, T9 (closed forms and ties). -/
theorem test_carrier_rational :
    [carrier 12000 1000 1 2 1, carrier 12000 1000 1 2 3, carrier 12000 1000 1 2 7,
      carrier 12000 1000 1 2 9, carrier 12000 1000 1 2 11, carrier 4000 1000 1 5 1,
      carrier 4000 1000 1 5 3, carrier 4000 1000 1 181 1, carrier 4000 1000 1 181 3,
      carrier 4000 3000 1 180 1] =
    [1, 1, 0, -1, 0, 3, -2, 91, -90, -90] := by decide

/-- The clamp and the byte of R60. -/
theorem test_clamp_enc8 :
    [91, 128, -91, -127, 90, -90, 0].map clamp = [90, 90, -90, -90, 90, -90, 0] ∧
    [0, 1, 90, -1, -2, -35, -53, -86, -90].map enc8 =
      [0x00, 0x01, 0x5A, 0xFF, 0xFE, 0xDD, 0xCB, 0xAA, 0xA6] := by decide

/-! ### The instructions -/

/-- R70 to R72 at the first segment: '1' plans `SIL 2` and every other character `WAV 2` (S2, S3). -/
theorem test_char_instructions :
    [Instr.bit1, .bit0, .bitx 0x78].map (fun i => (nextState? (exec i ready)).map State.seg) =
    [some ⟨.sil, 2, 0⟩, some ⟨.wav, 2, 0⟩, some ⟨.wav, 2, 0⟩] := by decide

/-- P2's `HDR`, `L1`, `L0` and `GAP`. -/
theorem test_sym_instructions :
    appended cfgP2 .hdr = some [0x00, 0x00, 0xDD, 0xDD, 0x32, 0x32, 0xDD, 0xDD, 0x00, 0x00, 0x23, 0x23, 0xCE,
      0xCE, 0x23, 0x23, 0, 0, 0, 0, 0, 0, 0, 0] ∧
    appended cfgP2 .l1 = some [0, 0, 0, 0, 0x00, 0x00, 0xDD, 0xDD, 0x32, 0x32, 0xDD, 0xDD, 0x00, 0x00, 0x23,
      0x23] ∧
    appended cfgP2 .l0 = some [0x00, 0x00, 0xDD, 0xDD, 0, 0, 0, 0, 0, 0, 0, 0, 0, 0, 0, 0] ∧
    appended cfgP2 .gap = some [0, 0, 0, 0, 0, 0] := by decide

/-- W2, W3, W5. -/
theorem test_seg_instructions :
    appended cfgT1 (.sil 3) = some [0, 0, 0, 0, 0, 0] ∧ appended cfgT1 (.wav 0) = some [] ∧
    appended cfgT1 (.wav 4) = some [0x00, 0x00, 0x35, 0x35, 0x56, 0x56, 0x56, 0x56] := by decide

/-- F1 to F6: the causes in order. -/
theorem test_start_faults :
    [ConfigRegs.reset, { cfgF with sampleRate := 0 }, { cfgF with dataFreq := 0 },
      { cfgF with numPhases := 0 }, { cfgF with repeatCount := 0 }, { cfgF with nbits := 4097 }].map
      statusAfterStart =
    [some (0x07, 0), some (0x07, 0), some (0x0B, 0), some (0x0F, 0), some (0x13, 0), some (0x17, 0)] := by
  decide

/-- F7, F8, F9. -/
theorem test_start_priority_and_length :
    [{ cfgF with dataFreq := 0, numPhases := 0 },
      ⟨0xFFFFFFFF, 1000, 1, 0xFFFF, 180, 4096, ⟨0xFFFFFFFF, 0xFFFFFFFF, 0⟩,
        ⟨0xFFFFFFFF, 0xFFFFFFFF, 0⟩, ⟨0xFFFFFFFF, 0xFFFFFFFF, 0⟩, ⟨0xFFFFFFFF, 0⟩⟩, cfgF].map
      statusAfterStart =
    [some (0x0B, 0), some (0x1B, 0), some (0x01, 0)] := by decide

/-- R130, H8, H9, F10, F11. -/
theorem test_ctrl_instructions :
    exec .nop faulted = .next faulted ∧ exec .start faulted = .next faulted ∧
    (nextState? (exec (.reset 1) faulted)).map (fun t => (regRead t 0x01, regRead t 0x04, t.bitmem)) =
      some (0, 0, [(0, 0x31), (1, 0x78)]) := by
  refine ⟨rfl, rfl, ?_⟩
  decide

/-! ### Plan and control transfer -/

/-- K1 and K2 of R76, with "101" and "". -/
theorem test_plan :
    symbolPlan { cfgF with nbits := 3, repeatCount := 2 } [(0, 0x31), (1, 0x30), (2, 0x31)] =
      [.header, .logic1, .logic0, .logic1, .gap, .logic1, .logic0, .logic1, .gap] ∧
    symbolPlan { cfgF with repeatCount := 3 } [] = [.header, .gap, .gap, .gap] := by decide

/-- The corners of the traces of K6 and K2 with `R` = 2. -/
theorem test_advance :
    [advance { cfgF with nbits := 2 } ⟨.lead, 0, 0, 0⟩, advance { cfgF with nbits := 2 } ⟨.header, 0, 0, 1⟩,
      advance { cfgF with nbits := 2 } ⟨.block, 0, 1, 1⟩, advance { cfgF with nbits := 2 } ⟨.block, 0, 2, 1⟩,
      advance { cfgF with repeatCount := 2 } ⟨.block, 0, 0, 1⟩,
      advance { cfgF with repeatCount := 2 } ⟨.block, 1, 0, 1⟩] =
    [⟨.header, 0, 0, 0⟩, ⟨.block, 0, 0, 0⟩, ⟨.block, 0, 2, 0⟩, ⟨.trail, 0, 0, 0⟩, ⟨.block, 1, 0, 0⟩,
      ⟨.trail, 0, 0, 0⟩] := by decide

/-! ### The host -/

/-- H1 to H6, H13, H14. -/
theorem test_host_registers :
    regRead State.reset 0x01 = 0 ∧ regRead State.reset 0x03 = 500 ∧
    readAfter (.regWrite 0x03 7) 0x03 ready = some 500 ∧
    readAfter (.regWrite 0x1C 1000) 0x1C ready = some 0 ∧
    readAfter (.regWrite 0x08 0x1B4) 0x08 ready = some 0xB4 ∧
    readAfter (.regWrite 0x04 5) 0x04 (busyAt .start ⟨.sil, 4, 0⟩) = some 8000 ∧
    readAfter (.regWrite 0x2A 1) 0x2A ready = some 0 ∧
    readAfter (.regWrite 0x04 10000) 0x04 faulted = some 8000 := by decide

/-- R128 at the last entry and past it; H12 at the end of `OUT`. -/
theorem test_host_edges :
    (nextState? (hostStep (.bitWrite 4095 0xFF) ready)).map (fun t => bitFetch t.bitmem 4095) = some 0xFF ∧
    hostStep (.bitWrite 4096 0xFF) ready = .next ready ∧
    (nextState? (hostStep (.outRead 2) { done with out := [7, 7], outCount := 2 })).map State.reply =
      some .refused := by
  refine ⟨by decide, rfl, by decide⟩

/-! ### Steps -/

/-- P3's first emit and advance, in P2's numbers: the lead is `SIL 4` and the header begins with `WAV 8`. -/
theorem test_core_steps :
    (nextState? (coreStep (busyAt .start ⟨.sil, 4, 3⟩))).map (fun t => (t.out, t.outCount, t.seg.idx)) =
      some ([0, 0], 2, 4) ∧
    (nextState? (coreStep (busyAt .start ⟨.sil, 4, 4⟩))).map (fun t => (t.pc, t.seg)) =
      some (⟨.header, 0, 0, 0⟩, ⟨.wav, 8, 0⟩) := by decide

/-- A word of each format, placed and run by the very next step (log 4): '1' is planned, `L0` and `WAV 4` are executed. -/
theorem test_withFetchWord :
    (nextState? (step (ready.withFetchWord 8 0x31))).map State.seg = some ⟨.sil, 2, 0⟩ ∧
    (nextState? (step (ready.withFetchWord 8 0))).map State.out =
      some [0x00, 0x00, 0xDD, 0xDD, 0, 0, 0, 0, 0, 0, 0, 0, 0, 0, 0, 0] ∧
    (nextState? (step (ready.withFetchWord 48 0x200000000004))).map State.out =
      some [0x00, 0x00, 0xDD, 0xDD, 0x32, 0x32, 0xDD, 0xDD] ∧
    (nextState? (step (placeCtrl ready 0b01#2))).map State.run = some .busy := by decide

/-- With the agenda and the core silent the machine waits; a turn the core does not have stops it. -/
theorem test_waiting_and_stop :
    step ready = .next ready ∧
    step (ready.withAgenda [.coreStep]) = .fault .noEnabledStep ∧
    step (ready.withAgenda [.coreInstr]) = .fault .noEnabledStep := ⟨rfl, rfl, rfl⟩

/-! ### What the statements assume can be met -/

theorem test_meets_DecodeOfEncode :
    [Instr.bitx 0x00, .bitx 0x2F, .bitx 0x32, .bitx 0xFF, .sil 0x1FFFFFFFFFFF, .reset 1].all Instr.wf = true := by
  decide

theorem test_meets_CharactersDecode :
    (0x2F#8 ≠ 0x31#8 ∧ 0x2F#8 ≠ 0x30#8) ∧ (0x32#8 ≠ 0x31#8 ∧ 0x32#8 ≠ 0x30#8) := by decide

theorem test_meets_DescriptorsDecode : 0 < 2 ^ 45 ∧ 2 ^ 45 - 1 < 2 ^ 45 := by decide

/-- A writable register with the gate open, at both ends of the numbers; and registers and run states for which a write
has no effect. -/
theorem test_meets_RegWriteFollowsItsRule :
    (regAt 0x04 = some .sampleRate ∧ regWritable .sampleRate = true ∧ gateOpen ready.run = true) ∧
    (regAt 0x1E = some (.highFirst .gap) ∧ regWritable (.highFirst .gap) = true ∧
      gateOpen done.run = true) ∧
    (∀ num ∈ [0x01#6, 0x03#6, 0x0A#6, 0x1C#6, 0x3F#6],
      num ≠ 0 ∧ ∀ r, regAt num = some r → regWritable r = false) ∧
    gateOpen faulted.run = false := by
  refine ⟨by decide, by decide, fun num h => ?_, by decide⟩
  fin_cases h <;> refine ⟨by decide, fun r e => ?_⟩ <;> cases e <;> rfl

theorem test_meets_HardwiredRegistersRead :
    [0x0A, 0x0F, 0x13, 0x17, 0x1B, 0x1F, 0x20, 0x3F].map regAt = List.replicate 8 none ∧
    0x20 ≤ (0x20 : RegNumber).toNat ∧ 0x20 ≤ (0x3F : RegNumber).toNat ∧ 0x0F#6 ∈ [0x0A#6, 0x0F#6] := by decide

theorem test_meets_ClosedGateDropsWrites :
    (busyAt .start ⟨.sil, 4, 0⟩).run = .busy ∧ faulted.run = .fault ∧ (0x04 : RegNumber) ≠ 0 := by decide

theorem test_meets_BitWriteStoresOneEntry :
    (4095 < ready.bitmemDepth.toNat ∧ gateOpen ready.run = true) ∧
    ¬ (4096 < ready.bitmemDepth.toNat ∧ gateOpen ready.run = true) ∧
    ¬ (0 < faulted.bitmemDepth.toNat ∧ gateOpen faulted.run = true) ∧ (4094 : Nat) ≠ 4095 := by decide

/-- With bytes at 0 and 1 in `OUT`: position 1 is below the count, position 2 is not. -/
theorem test_meets_ReadsHaveNoSideEffect :
    let s := { done with out := [7, 7], outCount := 2 }
    s.outCount.toNat = s.out.length ∧ 1 < s.out.length ∧ s.out.length ≤ 2 := by decide

theorem test_meets_SegmentOrderFollowsHighFirst :
    (profileOf cfgP2 .header).highFirst = 1 ∧ (profileOf cfgP2 .gap).highFirst = 0 := by decide

theorem test_meets_WaveformsArePrefixesOfOneSequence :
    ready.cfg = done.cfg ∧ (0 : Count).toNat ≤ (5 : Count).toNat ∧ (5 : Count).toNat ≤ (5 : Count).toNat := by
  decide

theorem test_meets_WaveformsBeginAtZero :
    ready.cfg.sampleRate ≠ 0 ∧ ready.cfg.dataFreq ≠ 0 ∧ ready.cfg.numPhases ≠ 0 ∧ (1 : Count) ≠ 0 := by decide

/-- For `CarrierIsTheRoundedSine`, `CarrierIsPeriodic` and `CarrierIsZeroAtHalfTurns`: table T1. -/
theorem test_meets_carrier_statements : 0 < 10000 ∧ 0 < 1000 ∧ 0 < 1 := by decide

/-- Half a turn at local index 5 of table T1. -/
theorem test_meets_CarrierIsZeroAtHalfTurns : 10000 * 1 ∣ 2 * thetaNum 10000 1000 1 5 := by decide

theorem test_meets_SamplesAreClamped :
    cfgT1.sampleRate ≠ 0 ∧ cfgT1.dataFreq ≠ 0 ∧ cfgT1.numPhases ≠ 0 ∧ cfgT1.amplitude.toNat ≤ 180 := by decide

theorem test_meets_SampleBytesAreTwosComplement :
    ((-90 : Int) ≤ -90 ∧ (-90 : Int) ≤ 90 ∧ (-90 : Int) < 0) ∧
    ((-90 : Int) ≤ 0 ∧ (0 : Int) ≤ 90 ∧ (0 : Int) ≤ 0) ∧ ((-90 : Int) ≤ 90 ∧ (90 : Int) ≤ 90) := by decide

theorem test_meets_SampleCountProperties :
    (1000 ≤ 1001 ∧ 499 ≤ 500) ∧ 1000 * 499 < 500000 ∧ ¬ 1000 * 500 < 500000 := by decide

/-- `START` ignored, accepted, and faulting, each in both run states. -/
theorem test_meets_StartFollowsItsRule :
    ((busyAt .start ⟨.sil, 4, 0⟩).run = .busy ∧ faulted.run = .fault) ∧
    (ready.run = .idle ∧ validate ready.cfg ready.bitmemDepth = .none) ∧
    (done.run = .done ∧ validate done.cfg done.bitmemDepth = .none) ∧
    (State.reset.run = .idle ∧ validate State.reset.cfg State.reset.bitmemDepth ≠ .none) ∧
    (let s := { done with bitmemDepth := 1 }
     s.run = .done ∧ validate s.cfg s.bitmemDepth ≠ .none) := by decide

/-- Each row of R142 applies to some configuration, `BAD_NBITS` at its edge. -/
theorem test_meets_ValidateReportsLowestCause :
    causeHolds { cfgF with sampleRate := 0 } 4096 .zeroSampleRate ∧
    causeHolds { cfgF with dataFreq := 0 } 4096 .zeroDataFreq ∧
    causeHolds { cfgF with numPhases := 0 } 4096 .zeroNumPhases ∧
    causeHolds { cfgF with repeatCount := 0 } 4096 .zeroRepeat ∧
    causeHolds { cfgF with nbits := 4097 } 4096 .badNbits ∧
    ¬ causeHolds { cfgF with nbits := 4096 } 4096 .badNbits := by
  simp only [causeHolds]
  decide

theorem test_meets_InstructionFrames :
    ∀ i ∈ [Instr.bit1, .l0, .sil 2, .wav 2, .nop, .start, .reset 0], ∃ t, exec i ready = .next t := by
  intro i h
  fin_cases h <;> exact ⟨_, rfl⟩

theorem test_meets_CoreStepEmitsOnePair :
    (busyAt .start ⟨.sil, 4, 3⟩).run = .busy ∧
    (3 : Count).toNat < (4 : Count).toNat ∧ (0 : Count).toNat < (8 : Count).toNat := by decide

theorem test_meets_CoreStepAdvancesAndLoads :
    let s := busyAt ⟨.block, 1, 2, 1⟩ ⟨.wav, 0, 0⟩
    s.run = .busy ∧ s.seg.n.toNat ≤ s.seg.idx.toNat ∧ s.pc.ph ≠ .trail := by decide

theorem test_meets_CoreStepEndsRun :
    let s := busyAt ⟨.trail, 0, 0, 0⟩ ⟨.sil, 4, 4⟩
    s.run = .busy ∧ s.seg.n.toNat ≤ s.seg.idx.toNat ∧ s.pc.ph = .trail := by decide

/-- Legal positions of P2 at the ends of their ranges. -/
theorem test_meets_AdvanceVisitsPositionsInOrder :
    LegalPos cfgP2 ⟨.lead, 0, 0, 0⟩ ∧ LegalPos cfgP2 ⟨.header, 0, 0, 1⟩ ∧
    LegalPos cfgP2 ⟨.block, 0, 0, 0⟩ ∧ LegalPos cfgP2 ⟨.block, 1, 2, 1⟩ ∧ cfgP2.repeatCount ≠ 0 := by
  simp only [LegalPos]
  decide

theorem test_meets_CurrentSymbolIsPlanElement :
    LegalPos cfgP2 ⟨.header, 0, 0, 0⟩ ∧ LegalPos cfgP2 ⟨.block, 1, 1, 0⟩ ∧ LegalPos cfgP2 ⟨.block, 1, 2, 0⟩ := by
  simp only [LegalPos]
  decide

theorem test_meets_EmptyInputPlansHeaderAndGaps : cfgF.nbits = 0 := by decide

/-- The invariant holds in `BUSY`, and a step of the core is answered there. -/
theorem test_meets_StepKeepsInvariant :
    Inv (beginRun ready) ∧ (∃ t, step (beginRun ready) = .next t) ∧
    (∃ t, step ((beginRun ready).withAgenda [.coreInstr]) = .next t) := by
  refine ⟨⟨by decide, by decide, rfl, legalStream_nil, fun _ => rfl, by decide, fun _ => ?_⟩,
    ⟨_, rfl⟩, ⟨_, rfl⟩⟩
  refine ⟨by decide, ⟨rfl, rfl, rfl⟩, beginRun_loaded ready, Nat.zero_le _, ?_⟩
  have e : (beginRun ready).out = [] := rfl
  rw [e, List.nil_append, beginRun_rest]
  rfl

/-- The invariant at the end of a run of program P5, which has no samples; the next step writes `DONE`. -/
theorem test_meets_DoneMeansComplete :
    let s : State := { busyAt ⟨.trail, 0, 0, 0⟩ ⟨.sil, 0, 0⟩ with cfg := { cfgP2 with sampleRate := 100 } }
    Inv s ∧ s.run = .busy ∧ ∃ t, step s = .next t ∧ t.run = .done := by
  refine ⟨⟨by decide, by decide, rfl, legalStream_nil, fun _ => rfl, by decide, fun _ => ?_⟩, rfl, _, rfl, rfl⟩
  exact ⟨by decide, ⟨rfl, rfl, rfl⟩, by decide, by decide, by decide⟩

/-- With `test_meets_StepKeepsInvariant`, which gives the invariant of the same state. -/
theorem test_meets_EveryRunEnds : (beginRun ready).run = .busy ∧ (beginRun ready).agenda = [] := ⟨rfl, rfl⟩

theorem test_meets_WhoWritesWhat :
    (∃ t, coreStep (beginRun ready) = .next t) ∧ (∃ t, coreInstr (beginRun ready) = .next t) ∧
    (∃ t, hostStep (.regWrite 0 2) ready = .next t) ∧ (∃ t, hostStep (.bitWrite 0 0x31) ready = .next t) ∧
    ∀ v, HostOp.bitWrite 0 0x31 ≠ .regWrite 0 v := by
  refine ⟨⟨_, rfl⟩, ⟨_, rfl⟩, ⟨_, rfl⟩, ⟨_, rfl⟩, fun v h => ?_⟩
  cases h

theorem test_meets_RunProducesTheWholeOutput :
    (ready.run = .idle ∧ done.run = .done) ∧ ready.agenda = [] ∧ done.agenda = [] ∧
    validate ready.cfg ready.bitmemDepth = .none := by decide

/-- One state fresh, the other after a run, with an old `OUT`, a shallower `BITMEM` and one more entry in it. -/
theorem test_meets_OutputDependsOnInputAlone :
    let s := ready
    let s' : State :=
      { done with out := [7, 7], outCount := 2, bitmemDepth := 3, bitmem := [(0, 0x31), (1, 0x78), (2, 0x31)] }
    s.run = .idle ∧ s'.run = .done ∧ validate s.cfg s.bitmemDepth = .none ∧
    validate s'.cfg s'.bitmemDepth = .none ∧ s.cfg = s'.cfg ∧
    ∀ k, k < s.cfg.nbits.toNat → bitFetch s.bitmem k = bitFetch s'.bitmem k := by
  refine ⟨rfl, rfl, by decide, by decide, rfl, fun k h => ?_⟩
  have h : k < 2 := h
  interval_cases k <;> rfl

/-- At the start of a symbol, and inside the leading silence. -/
theorem test_meets_FusedTurnIsSomeCoreSteps :
    (let s := busyAt ⟨.block, 0, 0, 0⟩ ⟨.sil, 2, 0⟩
     s.run = .busy ∧ LegalPos s.cfg s.pc ∧
      (⟨s.seg.kind, s.seg.n⟩ : Segment) = positionSegment s.cfg s.bitmem s.pc ∧
      s.seg.idx.toNat ≤ s.seg.n.toNat) ∧
    (let s := busyAt .start ⟨.sil, 4, 4⟩
     s.run = .busy ∧ LegalPos s.cfg s.pc ∧
      (⟨s.seg.kind, s.seg.n⟩ : Segment) = positionSegment s.cfg s.bitmem s.pc ∧
      s.seg.idx.toNat ≤ s.seg.n.toNat) := by
  refine ⟨⟨rfl, ⟨?_, ?_⟩, ?_, ?_⟩, rfl, ⟨rfl, rfl, rfl⟩, ?_, ?_⟩ <;> decide

/-- The three ways to an instruction: a fused turn, a command, an input position; and the two kinds of fetch. -/
theorem test_meets_StepRunsTheDecodedInstruction :
    (let s := (busyAt ⟨.block, 0, 0, 0⟩ ⟨.sil, 2, 0⟩).withAgenda [.coreInstr]
     s.run = .busy ∧ fetchInstr (s.withAgenda []) = some .l1) ∧
    (let s := ready.withAgenda [.host (.regWrite 0 1)]
     s.agenda = .host (.regWrite 0 1) :: []) ∧
    (let s := busyAt ⟨.header, 0, 0, 1⟩ ⟨.sil, 4, 4⟩
     s.agenda = [] ∧ s.run = .busy ∧ s.seg.n.toNat ≤ s.seg.idx.toNat ∧ s.pc.ph ≠ .trail ∧
      (advance s.cfg s.pc).ph = .block ∧ (advance s.cfg s.pc).pos.toNat < s.cfg.nbits.toNat) ∧
    (let s := busyAt ⟨.block, 0, 2, 0⟩ ⟨.sil, 3, 0⟩
     s.seg.idx = 0 ∧ s.pc.ph = .block ∧ s.pc.seg = 0) ∧
    (let s := busyAt .start ⟨.sil, 4, 0⟩
     s.seg.idx = 0 ∧ s.pc.ph = .lead) := by decide

/-- For `RunInputsDoNotChange`, `OutputOnlyGrowsDuringRun` and `RunStateMachine`: in `BUSY` a step that goes on, one that
ends the run, and a reset. -/
theorem test_meets_statements_about_busy_steps :
    (nextState? (step (busyAt .start ⟨.sil, 4, 0⟩))).map State.run = some .busy ∧
    (nextState? (step (busyAt ⟨.trail, 0, 0, 0⟩ ⟨.sil, 4, 4⟩))).map State.run = some .done ∧
    (nextState? (step ((busyAt .start ⟨.sil, 4, 0⟩).withAgenda [.hardwareReset]))).map State.run =
      some .idle := by decide

theorem test_meets_FaultIsLeftOnlyByReset :
    faulted.run = .fault ∧ step faulted = .next faulted ∧
    (∃ t, step (faulted.withAgenda [.host (.regRead 1)]) = .next t) ∧
    (∃ t, step (faulted.withAgenda [.hardwareReset]) = .next t) := ⟨rfl, rfl, ⟨_, rfl⟩, ⟨_, rfl⟩⟩

theorem test_meets_HardwareResetEqualsCommand :
    (busyAt .start ⟨.sil, 4, 2⟩ |>.withAgenda [.hardwareReset]).agenda = .hardwareReset :: [] := rfl

end Sys2Proof.Tests
end

/-! PROOFS. Reset (spec/10_state.md R31): the reads of the hard-wired and view registers, the refused `START`, and the
state after reset. -/

namespace Sys2Proof.Machine

/-- R21, R126: register 1 is the view `STATUS`. -/
@[simp] theorem regRead_status (s : State) : regRead s 0x01#6 = (statusByte s.run s.cause).setWidth 64 := rfl

/-- R19: register 3 is `EDGE_US`, hard-wired. -/
@[simp] theorem regRead_edgeUs (s : State) : regRead s 0x03#6 = 500#64 := rfl

/-- R143: a zero sample rate has the highest priority, so it is reported whatever the other registers hold. -/
theorem validate_of_sampleRate_eq_zero {cfg : ConfigRegs} (h : cfg.sampleRate = 0) (depth : BitVec 16) :
    validate cfg depth = .zeroSampleRate := if_pos h

/-- R129, R145: with the gate open and an invalid configuration, `START` empties `OUT` and raises `DomainError`. -/
theorem exec_start_of_invalid {s : State} (hg : gateOpen s.run = true)
    (hv : validate s.cfg s.bitmemDepth ≠ .none) :
    exec .start s = .next (raiseDomainError (validate s.cfg s.bitmemDepth) (clearOut s)) := by
  obtain ⟨hshut, -⟩ | ⟨-, hvalid, -⟩ | ⟨-, c, -, rfl, hexec⟩ := execStart_cases s
  · simp [hg] at hshut
  · exact absurd hvalid hv
  · exact hexec

/-- The reset configuration is not a valid one (R31). -/
theorem validate_reset : validate State.reset.cfg State.reset.bitmemDepth = .zeroSampleRate :=
  validate_of_sampleRate_eq_zero rfl _

/-- A `START` straight after reset raises `DomainError(ZERO_SAMPLE_RATE)` (R31). -/
theorem exec_start_reset :
    exec .start State.reset = .next (raiseDomainError .zeroSampleRate (clearOut State.reset)) := by
  rw [← validate_reset]
  exact exec_start_of_invalid rfl (by simp [validate_reset])

/-- Settles O42: the fields after reset are those of `State.reset`, and a `START` there is the refused one. -/
theorem resetLeavesTheTabledValues : Obligations.ResetLeavesTheTabledValues := by
  refine ⟨⟨rfl, rfl, rfl, rfl, rfl, rfl, rfl, regRead_edgeUs _, ?idleStatus⟩, _, exec_start_reset,
    raiseDomainError_run _ _, raiseDomainError_cause _ _, ?faultStatus⟩
  case idleStatus => exact (regRead_status _).trans (by decide)
  case faultStatus => simp [statusByte, causeCode, runCode]

end Sys2Proof.Machine

/-! PROOFS. Runs depend on their input alone (R54): what the core reads of `BITMEM`, the order in which a run visits its
positions and so its end, and two runs in lockstep. -/

namespace Sys2Proof.Machine

/-! ### What is read of `BITMEM` -/

/-- Two contents of `BITMEM` that read the same at every input position of a configuration. -/
def SameInput (cfg : ConfigRegs) (mem mem' : List Host.Cell) : Prop :=
  ∀ k, k < cfg.nbits.toNat → bitFetch mem k = bitFetch mem' k

section
variable {cfg : ConfigRegs} {mem mem' : List Host.Cell} (h : SameInput cfg mem mem')
include h

/-- R75: the symbol at a position depends on the input alone. -/
theorem SameInput.curSymbol_eq (pc : SeqPos) : curSymbol cfg mem pc = curSymbol cfg mem' pc := by
  unfold curSymbol
  split_ifs with _ hpos
  · rfl
  · rw [h _ hpos]
  · rfl

/-- R111: so does the segment loaded for it. -/
theorem SameInput.positionSegment_eq (pc : SeqPos) :
    positionSegment cfg mem pc = positionSegment cfg mem' pc := by
  simp only [positionSegment, h.curSymbol_eq]

/-- R74: and the Symbol Plan. -/
theorem SameInput.symbolPlan_eq : symbolPlan cfg mem = symbolPlan cfg mem' := by
  have hmap : (List.range cfg.nbits.toNat).map (inputSymbol mem) =
      (List.range cfg.nbits.toNat).map (inputSymbol mem') :=
    List.map_congr_left fun k hk => by rw [inputSymbol, inputSymbol, h k (List.mem_range.1 hk)]
  rw [symbolPlan, symbolPlan, planBlock, planBlock, hmap]

/-- R114: and the whole output. -/
theorem SameInput.runBytes_eq : runBytes cfg mem = runBytes cfg mem' := by
  rw [runBytes, runBytes, h.symbolPlan_eq]

end

/-! ### The order of a run -/

/-- A valid configuration repeats at least once (R142). -/
theorem repeatCount_ne_zero_of_valid {cfg : ConfigRegs} {depth : BitVec 16}
    (h : validate cfg depth = .none) : cfg.repeatCount ≠ 0 := by
  intro h0
  unfold validate at h
  rw [if_pos h0] at h
  split_ifs at h

/-- R25, R76: the plan index of a legal position lies inside the plan. -/
theorem planIndex_lt_planLength {cfg : ConfigRegs} {pc : SeqPos} (h : LegalPos cfg pc) :
    planIndex cfg pc < planLength cfg := by
  unfold planIndex planLength
  split_ifs with hph
  · obtain ⟨hrep, hpos⟩ : pc.rep.toNat < cfg.repeatCount.toNat ∧ pc.pos.toNat ≤ cfg.nbits.toNat := by
      simpa [LegalPos, hph] using h
    have := Nat.mul_le_mul_right (cfg.nbits.toNat + 1) (Nat.succ_le_of_lt hrep)
    rw [Nat.succ_mul] at this
    omega
  · omega

/-- No legal position stands after `TRAIL`. -/
theorem visitOrder_le {cfg : ConfigRegs} {pc : SeqPos} (h : LegalPos cfg pc) :
    visitOrder cfg pc ≤ 1 + 2 * planLength cfg := by
  have hp := planIndex_lt_planLength h
  have hs := pc.seg.isLt
  unfold visitOrder
  cases pc.ph <;> simp only <;> omega

/-- R25, R78: where a position of `BLOCK` stands in the order of a run. -/
theorem visitOrder_block (cfg : ConfigRegs) (rep pos : BitVec 16) (seg : BitVec 1) :
    visitOrder cfg ⟨.block, rep, pos, seg⟩ =
      1 + 2 * (1 + rep.toNat * (cfg.nbits.toNat + 1) + pos.toNat) + seg.toNat := rfl

/-- R78 in `BLOCK`: the second segment, then the next position, then the next repetition, then `TRAIL`. -/
theorem advance_next_of_block {cfg : ConfigRegs} {rep pos : BitVec 16} {seg : BitVec 1}
    (h : LegalPos cfg ⟨.block, rep, pos, seg⟩) :
    LegalPos cfg (advance cfg ⟨.block, rep, pos, seg⟩) ∧
      visitOrder cfg (advance cfg ⟨.block, rep, pos, seg⟩) = visitOrder cfg ⟨.block, rep, pos, seg⟩ + 1 := by
  obtain ⟨hrep, hpos⟩ : rep.toNat < cfg.repeatCount.toNat ∧ pos.toNat ≤ cfg.nbits.toNat := h
  have hn := cfg.nbits.isLt
  have hr := cfg.repeatCount.isLt
  simp only [advance]
  split_ifs with hseg hin hmore
  · exact ⟨⟨hrep, hpos⟩, by rw [visitOrder_block, visitOrder_block, hseg]; rfl⟩
  all_goals obtain rfl : seg = 1 := by bv_omega
  · have hsucc : (pos + 1).toNat = pos.toNat + 1 := by bv_omega
    refine ⟨⟨hrep, hsucc.trans_le hin⟩, ?_⟩
    rw [visitOrder_block, visitOrder_block, hsucc]
    bv_omega
  · have hsucc : (rep + 1).toNat = rep.toNat + 1 := by bv_omega
    refine ⟨⟨hsucc.trans_lt hmore, Nat.zero_le _⟩, ?_⟩
    rw [visitOrder_block, visitOrder_block, hsucc, Nat.succ_mul rep.toNat]
    bv_omega
  · have hlast : cfg.repeatCount.toNat = rep.toNat + 1 := by omega
    refine ⟨⟨rfl, rfl, rfl⟩, ?_⟩
    rw [visitOrder_block]
    simp only [visitOrder, planLength, hlast, Nat.succ_mul rep.toNat]
    bv_omega

/-- R78: `advance` goes from a legal position to the legal position next in the order of a run. -/
theorem advance_next {cfg : ConfigRegs} {pc : SeqPos} (h : LegalPos cfg pc) (hR : cfg.repeatCount ≠ 0)
    (ht : pc.ph ≠ .trail) :
    LegalPos cfg (advance cfg pc) ∧ visitOrder cfg (advance cfg pc) = visitOrder cfg pc + 1 := by
  obtain ⟨ph, rep, pos, seg⟩ := pc
  cases ph with
  | lead => exact ⟨⟨rfl, rfl⟩, rfl⟩
  | header =>
    simp only [advance]
    split_ifs with hseg
    · exact ⟨⟨rfl, rfl⟩, by simp [visitOrder, planIndex, hseg]⟩
    · obtain rfl : seg = 1 := by bv_omega
      exact ⟨⟨by bv_omega, Nat.zero_le _⟩, by simp [visitOrder, planIndex]⟩
  | block => exact advance_next_of_block h
  | trail => exact absurd rfl ht

/-! ### A run ends -/

/-- Out of `TRAIL` the core steps that finish the segment and one more end the run (R112, R134). -/
theorem coreSteps_end {s : State} (hb : s.run = .busy) (hidx : s.seg.idx.toNat ≤ s.seg.n.toNat)
    (ht : s.pc.ph = .trail) :
    coreSteps (s.seg.n.toNat - s.seg.idx.toNat + 1) s = .next ((finishSegment s).withRun .done) := by
  have hpc : (finishSegment s).pc = s.pc := by rw [finishSegment_eq s hidx]
  rw [coreSteps_advance s hb hidx, advanceStep_eq, hpc, if_pos ht]

/-- Out of any other position they lead to the start of the next one's segment (R78, R111, R112). -/
theorem coreSteps_leave {s : State} (hb : s.run = .busy) (hidx : s.seg.idx.toNat ≤ s.seg.n.toNat)
    (ht : s.pc.ph ≠ .trail) :
    ∃ t, coreSteps (s.seg.n.toNat - s.seg.idx.toNat + 1) s = .next t ∧ t.run = .busy ∧ t.cfg = s.cfg ∧
      t.pc = advance s.cfg s.pc ∧ t.seg.idx = 0 := by
  have hfin := finishSegment_eq s hidx
  have hpc : (finishSegment s).pc = s.pc := by rw [hfin]
  have hrun : (finishSegment s).run = .busy := by rw [hfin, hb]
  rw [coreSteps_advance s hb hidx, advanceStep_eq, hpc, if_neg ht]
  exact ⟨_, rfl, by simp [hrun], by simp [hfin], by simp [hfin], by simp⟩

/-- From the segment of a legal position some number of core steps leads to `DONE`: each position left stands nearer
to the end of the order of the run. -/
theorem coreSteps_reach_done {s : State} (hb : s.run = .busy) (hR : s.cfg.repeatCount ≠ 0)
    (hpc : LegalPos s.cfg s.pc) (hidx : s.seg.idx.toNat ≤ s.seg.n.toNat) :
    ∃ k u, coreSteps k s = .next u ∧ u.run = .done := by
  by_cases ht : s.pc.ph = .trail
  · exact ⟨_, _, coreSteps_end hb hidx ht, by simp⟩
  · obtain ⟨t, hleave, htb, htcfg, htpc, htidx⟩ := coreSteps_leave hb hidx ht
    obtain ⟨hlegal, horder⟩ := advance_next hpc hR ht
    have hbound := visitOrder_le hlegal
    obtain ⟨k, u, hk, hu⟩ := coreSteps_reach_done htb (htcfg ▸ hR)
      (by rw [htcfg, htpc]; exact hlegal) (by simp [htidx])
    exact ⟨_, u, by rw [coreSteps_add, hleave]; exact hk, hu⟩
termination_by 1 + 2 * planLength s.cfg - visitOrder s.cfg s.pc
decreasing_by rw [htcfg, htpc]; omega

/-! ### Two runs in lockstep -/

/-- Two states of the same run: they agree in all that the core writes but `OUT_COUNT`, and in all that it reads. -/
structure SameRun (s s' : State) : Prop where
  cfg : s'.cfg = s.cfg
  run : s'.run = s.run
  out : s'.out = s.out
  seg : s'.seg = s.seg
  pc : s'.pc = s.pc
  input : SameInput s.cfg s.bitmem s'.bitmem

section
variable {s s' t : State} (h : SameRun s s')
include h

/-- Both emit the same pair (R112). -/
theorem SameRun.emitPair : SameRun (emitPair s) (emitPair s') :=
  ⟨h.cfg, h.run, by simp only [emitPair_out, currentSample_eq, h.cfg, h.out, h.seg],
    by simp only [emitPair_seg, h.seg], h.pc, h.input⟩

/-- Both load the same segment for a position (R111). -/
theorem SameRun.loadPosition (p : SeqPos) :
    SameRun (loadSegment (positionSegment s.cfg s.bitmem p) (s.withPc p))
      (loadSegment (positionSegment s'.cfg s'.bitmem p) (s'.withPc p)) :=
  ⟨by simp [h.cfg], by simp [h.run], by simp [h.out], by simp [h.cfg, h.input.positionSegment_eq], by simp,
    by simpa using h.input⟩

/-- Both end the run (R134). -/
theorem SameRun.withRun (r : RunState) : SameRun (s.withRun r) (s'.withRun r) :=
  ⟨h.cfg, rfl, h.out, h.seg, h.pc, h.input⟩

/-- A step of the core in one of them is a step in the other, to states of the same run again (R112). -/
theorem SameRun.coreStep (hs : coreStep s = .next t) : ∃ t', coreStep s' = .next t' ∧ SameRun t t' := by
  obtain ⟨hb, ⟨hi, rfl⟩ | ⟨hi, ht, rfl⟩ | ⟨hi, ht, rfl⟩⟩ := coreStep_cases hs
  · refine ⟨_, ?_, h.emitPair⟩
    rw [Machine.coreStep, h.run, if_pos hb, h.seg, if_pos hi]
  · refine ⟨_, ?_, h.withRun .done⟩
    rw [Machine.coreStep, h.run, if_pos hb, h.seg, if_neg hi.not_gt, advanceStep_eq, h.pc, if_pos ht]
  · refine ⟨_, ?_, h.loadPosition (advance s.cfg s.pc)⟩
    rw [Machine.coreStep, h.run, if_pos hb, h.seg, if_neg hi.not_gt, advanceStep_eq, h.pc, if_neg ht, h.cfg]

end

/-- So is any number of them. -/
theorem SameRun.coreSteps {s s' t : State} {k : Nat} (h : SameRun s s') (hs : coreSteps k s = .next t) :
    ∃ t', coreSteps k s' = .next t' ∧ SameRun t t' := by
  induction k generalizing s s' with
  | zero =>
    obtain rfl := nextEq_iff.1 hs
    exact ⟨s', rfl, h⟩
  | succ k ih =>
    rw [Machine.coreSteps] at hs ⊢
    cases hstep : Machine.coreStep s with
    | next u =>
      obtain ⟨u', hstep', hu⟩ := h.coreStep hstep
      rw [hstep] at hs
      rw [hstep']
      exact ih hu hs
    | fault _ => simp [hstep, andThen] at hs
    | refused _ => simp [hstep, andThen] at hs

/-- R129: an accepted `START`. -/
theorem exec_start_of_valid {s : State} (hg : s.run = .idle ∨ s.run = .done)
    (hv : validate s.cfg s.bitmemDepth = .none) : exec .start s = .next (beginRun (clearOut s)) := by
  have hopen : gateOpen s.run = true := by rcases hg with h | h <;> rw [h] <;> rfl
  obtain ⟨hshut, -⟩ | ⟨-, -, hexec⟩ | ⟨-, c, hc, hvc, -⟩ := execStart_cases s
  · simp [hopen] at hshut
  · exact hexec
  · exact absurd (hvc.symm.trans hv) hc

/-- After `START` two states with the same configuration and the same input are of the same run. -/
theorem SameInput.beginRun {s s' : State} (hcfg : s.cfg = s'.cfg) (h : SameInput s.cfg s.bitmem s'.bitmem) :
    SameRun (beginRun (clearOut s)) (beginRun (clearOut s')) :=
  ⟨by simp [hcfg], by simp, by simp, by simp [hcfg], by simp, by simpa using h⟩

/-- Settles O49: the first run ends, and the second goes in lockstep with it; the whole-run function reads the input
through the Symbol Plan only. -/
theorem outputDependsOnInputAlone : Obligations.OutputDependsOnInputAlone := by
  refine ⟨fun s s' hg hg' hv hv' hcfg hin => ?_, fun cfg mem mem' hin => SameInput.runBytes_eq hin⟩
  obtain ⟨k, u, hk, hu⟩ := coreSteps_reach_done (s := beginRun (clearOut s)) rfl
    (repeatCount_ne_zero_of_valid hv) ⟨rfl, rfl, rfl⟩ (Nat.zero_le _)
  obtain ⟨u', hk', hsame⟩ := (SameInput.beginRun hcfg hin).coreSteps hk
  exact ⟨k, _, _, u, u', exec_start_of_valid hg hv, exec_start_of_valid hg' hv', hk, hk', hu,
    hsame.run.trans hu, hsame.out.symm⟩

end Sys2Proof.Machine

/-! PROOFS. Encoding (spec/30_encoding.md R56, R58, R60, R62): the decoders of characters, descriptors and commands on
the words the rules speak of, and the sample byte. -/

namespace Sys2Proof.Machine

/-! ### Format `SEG` -/

/-- R58: the number of a descriptor, `KIND` in bit 45 above the count. -/
theorem ofNat_kind_add_count (b : BitVec 1) {n : Nat} (hn : n < 2 ^ 45) :
    BitVec.ofNat 46 (2 ^ 45 * b.toNat + n) = b ++ BitVec.ofNat 45 n := by
  have hb : b.toNat < 2 := b.isLt
  apply BitVec.eq_of_toNat_eq
  rw [BitVec.toNat_append, BitVec.toNat_ofNat, BitVec.toNat_ofNat, Nat.mod_eq_of_lt hn,
    ← Nat.shiftLeft_add_eq_or_of_lt hn, Nat.shiftLeft_eq, Nat.mod_eq_of_lt (by omega), Nat.mul_comm]

/-- R58: a descriptor decodes to the instruction of its `KIND`, its count kept. -/
theorem decodeSeg_append (b : BitVec 1) (n : Count) :
    decodeSeg (b ++ n : BitVec 46) = if b.getLsbD 0 then .wav n else .sil n := by
  have hkind : (b ++ n : BitVec 46).getLsbD 45 = b.getLsbD 0 := by
    rw [BitVec.getLsbD_append]
    rfl
  have hcount : (b ++ n : BitVec 46).extractLsb' 0 45 = n := BitVec.extractLsb'_append_eq_right
  rw [decodeSeg, hkind, hcount]

/-- R58: the same, of the descriptor as a number. -/
theorem decodeSeg_ofNat (b : BitVec 1) {n : Nat} (hn : n < 2 ^ 45) :
    decodeSeg (BitVec.ofNat 46 (2 ^ 45 * b.toNat + n)) =
      if b.getLsbD 0 then .wav (BitVec.ofNat 45 n) else .sil (BitVec.ofNat 45 n) := by
  rw [ofNat_kind_add_count b hn, decodeSeg_append]

/-- R63: the decoder of format `SEG`. -/
theorem decode_seg (w : BitVec 46) : decode .seg w = decodeSeg w := rfl

/-- Settles O4: the words are those of `KIND` 0 and of `KIND` 1. -/
theorem descriptorsDecode : Obligations.DescriptorsDecode := by
  intro n hn
  rw [decode_seg, decode_seg]
  constructor
  · simpa using decodeSeg_ofNat 0#1 hn
  · simpa using decodeSeg_ofNat 1#1 hn

/-! ### Format `CTRL` -/

/-- R62: a bit of the command is that bit of the value. -/
theorem getLsbD_lowBits (v : RegValue) {i : Nat} (hi : i < 2) :
    (v.extractLsb' 0 2).getLsbD i = decide (v.toNat / 2 ^ i % 2 = 1) := by
  rw [BitVec.getLsbD_extractLsb', Nat.zero_add, ← BitVec.testBit_toNat,
    Nat.testBit_eq_decide_div_mod_eq, decide_eq_true hi, Bool.true_and]

/-- R62, R63: the command in the two low bits of a value, the `RESET` bit first. -/
theorem decodeCtrl_lowBits (v : RegValue) :
    decodeCtrl (v.extractLsb' 0 2) =
      if v.toNat / 2 % 2 = 1 then .reset (v.extractLsb' 0 1)
      else if v.toNat % 2 = 1 then .start
      else .nop := by
  have hreset := getLsbD_lowBits v (i := 1) (by decide)
  have hstart := getLsbD_lowBits v (i := 0) (by decide)
  rw [Nat.pow_one] at hreset
  rw [Nat.pow_zero, Nat.div_one] at hstart
  have hbit : (v.extractLsb' 0 2).extractLsb' 0 1 = v.extractLsb' 0 1 := by
    simp [BitVec.extractLsb'_extractLsb'_of_le]
  simp only [decodeCtrl, hreset, hstart, hbit, decide_eq_true_eq]

/-- R125: a write to register 0 executes the command decoded from it, in every run state. -/
theorem hostStep_regWrite_ctrl (v : RegValue) (s : State) :
    hostStep (.regWrite 0 v) s = exec (decodeCtrl (v.extractLsb' 0 2)) s := rfl

/-- Settles O11, by the three commands. -/
theorem commandWritesDecode : Obligations.CommandWritesDecode := by
  intro s v
  rw [hostStep_regWrite_ctrl, decodeCtrl_lowBits]
  split_ifs
  · rfl
  · rfl
  · rfl

/-! ### The sample byte -/

/-- R60: the sample byte is the sample modulo 256. -/
theorem enc8_toNat (v : Int) : ((enc8 v).toNat : Int) = v % 256 := by
  rw [enc8, BitVec.toNat_ofInt]
  exact Int.toNat_of_nonneg (Int.emod_nonneg _ (by decide))

/-- R60: read as a signed byte, it is the sample. -/
theorem enc8_toInt {v : Int} (hlo : -128 ≤ v) (hhi : v < 128) : (enc8 v).toInt = v := by
  rw [enc8, BitVec.toInt_ofInt]
  exact Int.bmod_eq_of_le hlo hhi

/-- Settles O25, from the byte as a remainder, by the sign of the sample. -/
theorem sampleBytesAreTwosComplement : Obligations.SampleBytesAreTwosComplement := by
  intro v hlo hhi
  have hbyte := enc8_toNat v
  refine ⟨fun hpos => ?_, fun hneg => ?_, ?_, enc8_toInt (by omega) (by omega)⟩
  · omega
  · omega
  · rcases lt_or_ge v 0 with hneg | hpos
    · right; omega
    · left; omega

/-! ### Format `CHAR` -/

/-- R56, R63: a character that is neither '1' nor '0' is `BITX`, and is kept. -/
theorem decodeChar_of_ne {ch : Byte} (h1 : ch ≠ 0x31#8) (h0 : ch ≠ 0x30#8) : decodeChar ch = .bitx ch := by
  rw [decodeChar, if_neg h1, if_neg h0]

/-- R72: `BITX` plans what `BIT0` plans, whatever its character. -/
theorem exec_bitx (ch : Byte) (s : State) : exec (.bitx ch) s = exec .bit0 s := rfl

/-- Settles O3. -/
theorem charactersDecode : Obligations.CharactersDecode :=
  ⟨rfl, rfl, fun ch h1 h0 => ⟨decodeChar_of_ne h1 h0, exec_bitx ch⟩⟩

end Sys2Proof.Machine

/-! PROOFS. The Symbol Plan (spec/40_symbol_planner.md R74 to R77): the symbol of an input position, the elements, the
length and the counts of one block and of the plan, and the empty input. -/

namespace Sys2Proof.Machine

/-! ### The symbol of an input position -/

/-- R57, R74: the code of the symbol of an input bit is the bit. -/
theorem symbolCode_symbolOfBit (b : BitVec 1) : symbolCode (symbolOfBit b) = b.setWidth 2 := by
  revert b
  decide

/-- R56, R74: '1' plans Logic1, any other character Logic0. -/
theorem inputSymbol_eq (mem : List Host.Cell) (k : Nat) :
    inputSymbol mem k = if bitFetch mem k = 0x31#8 then .logic1 else .logic0 := by
  unfold inputSymbol bitOf
  split_ifs <;> rfl

theorem inputSymbol_eq_logic1_iff (mem : List Host.Cell) (k : Nat) :
    inputSymbol mem k = .logic1 ↔ bitFetch mem k = 0x31#8 := by
  rw [inputSymbol_eq]
  split_ifs with h <;> simp [h]

theorem inputSymbol_eq_logic0_iff (mem : List Host.Cell) (k : Nat) :
    inputSymbol mem k = .logic0 ↔ bitFetch mem k ≠ 0x31#8 := by
  rw [inputSymbol_eq]
  split_ifs with h <;> simp [h]

/-- R75: the code of the symbol at a position of `HEADER` or `BLOCK`. -/
theorem symbolCode_curSymbol (cfg : ConfigRegs) (mem : List Host.Cell) (pc : SeqPos) :
    symbolCode (curSymbol cfg mem pc) =
      if pc.ph = .header then 0b10
      else if pc.pos.toNat < cfg.nbits.toNat then (bitOf (bitFetch mem pc.pos.toNat)).setWidth 2
      else 0b11 := by
  unfold curSymbol
  split_ifs
  · rfl
  · exact symbolCode_symbolOfBit _
  · rfl

/-! ### The elements of the plan -/

/-- Element `j` of copy `i` of a list repeated `r` times. -/
theorem getElem?_flatten_replicate {α : Type} (l : List α) {r i j : Nat} (hi : i < r) (hj : j < l.length) :
    (List.replicate r l).flatten[i * l.length + j]? = l[j]? := by
  induction r generalizing i with
  | zero => exact absurd hi (Nat.not_lt_zero i)
  | succ r ih =>
    rw [List.replicate_succ, List.flatten_cons]
    cases i with
    | zero => rw [Nat.zero_mul, Nat.zero_add, List.getElem?_append_left hj]
    | succ i =>
      have hsplit : (i + 1) * l.length + j = l.length + (i * l.length + j) := by
        rw [Nat.succ_mul]; omega
      rw [hsplit, List.getElem?_append_right (Nat.le_add_right _ _), Nat.add_sub_cancel_left]
      exact ih (Nat.lt_of_succ_lt_succ hi)

/-- R76: a block is the input and a Gap. -/
@[simp] theorem length_planBlock (cfg : ConfigRegs) (mem : List Host.Cell) :
    (planBlock cfg mem).length = cfg.nbits.toNat + 1 := by
  simp [planBlock]

/-- R74, R75: the elements of a block are the symbols of its positions. -/
theorem getElem?_planBlock {cfg : ConfigRegs} (mem : List Host.Cell) {rep pos : BitVec 16} {seg : BitVec 1}
    (hpos : pos.toNat ≤ cfg.nbits.toNat) :
    (planBlock cfg mem)[pos.toNat]? = some (curSymbol cfg mem ⟨.block, rep, pos, seg⟩) := by
  rcases hpos.lt_or_eq with hin | hend
  · rw [planBlock, List.getElem?_append_left (by simpa using hin)]
    simp [curSymbol, inputSymbol, hin]
  · simp [planBlock, curSymbol, hend]

/-- R25, R74: past the Header, the plan is read block by block. -/
theorem getElem?_symbolPlan_block {cfg : ConfigRegs} (mem : List Host.Cell) {rep pos : Nat}
    (hrep : rep < cfg.repeatCount.toNat) (hpos : pos ≤ cfg.nbits.toNat) :
    (symbolPlan cfg mem)[1 + rep * (cfg.nbits.toNat + 1) + pos]? = (planBlock cfg mem)[pos]? := by
  have hlen := length_planBlock cfg mem
  rw [symbolPlan, Nat.add_assoc, Nat.add_comm 1, List.getElem?_cons_succ, ← hlen]
  exact getElem?_flatten_replicate _ hrep (by omega)

/-- R75: at a legal position the symbol is the element of the plan at the plan index. -/
theorem getElem?_symbolPlan_planIndex {cfg : ConfigRegs} (mem : List Host.Cell) {pc : SeqPos}
    (h : LegalPos cfg pc) (hph : pc.ph = .header ∨ pc.ph = .block) :
    (symbolPlan cfg mem)[planIndex cfg pc]? = some (curSymbol cfg mem pc) := by
  obtain ⟨ph, rep, pos, seg⟩ := pc
  obtain rfl | rfl : ph = .header ∨ ph = .block := hph
  · rfl
  · obtain ⟨hrep, hpos⟩ : rep.toNat < cfg.repeatCount.toNat ∧ pos.toNat ≤ cfg.nbits.toNat := h
    exact (getElem?_symbolPlan_block mem hrep hpos).trans (getElem?_planBlock mem hpos)

/-- Settles O39, from the code of the symbol and the elements of the plan. -/
theorem currentSymbolIsPlanElement : Obligations.CurrentSymbolIsPlanElement :=
  fun cfg mem pc hph => ⟨symbolCode_curSymbol cfg mem pc, fun h => getElem?_symbolPlan_planIndex mem h hph⟩

/-! ### Length and counts -/

/-- R76: the length of the plan. -/
theorem length_symbolPlan (cfg : ConfigRegs) (mem : List Host.Cell) :
    (symbolPlan cfg mem).length = 1 + cfg.repeatCount.toNat * (cfg.nbits.toNat + 1) := by
  simp [symbolPlan, Nat.add_comm]

/-- R74: a symbol stands in the plan once for the Header and, in each block, as often as in the first. -/
theorem count_symbolPlan (cfg : ConfigRegs) (mem : List Host.Cell) (c : SymbolKind) :
    (symbolPlan cfg mem).count c =
      cfg.repeatCount.toNat * (planBlock cfg mem).count c + if SymbolKind.header = c then 1 else 0 := by
  simp [symbolPlan, List.count_cons, List.count_flatten]

/-- R74: a symbol stands in a block as often as the input plans it, and once for the Gap. -/
theorem count_planBlock (cfg : ConfigRegs) (mem : List Host.Cell) (c : SymbolKind) :
    (planBlock cfg mem).count c =
      (List.range cfg.nbits.toNat).countP (fun k => inputSymbol mem k = c) +
        if SymbolKind.gap = c then 1 else 0 := by
  have hmap : ((List.range cfg.nbits.toNat).map (inputSymbol mem)).count c =
      (List.range cfg.nbits.toNat).countP (fun k => inputSymbol mem k = c) := List.countP_map
  rw [planBlock, List.count_append, hmap, List.count_singleton]
  simp

/-- R74: the input plans Logic0 and Logic1 only. -/
theorem countP_inputSymbol_eq_zero (cfg : ConfigRegs) (mem : List Host.Cell) {c : SymbolKind}
    (h1 : c ≠ .logic1) (h0 : c ≠ .logic0) :
    (List.range cfg.nbits.toNat).countP (fun k => inputSymbol mem k = c) = 0 := by
  refine List.countP_eq_zero.2 fun k _ => ?_
  rw [inputSymbol_eq]
  split_ifs
  · simpa using h1.symm
  · simpa using h0.symm

/-- R76: the input plans `c1` times Logic1. -/
theorem countP_inputSymbol_logic1 (cfg : ConfigRegs) (mem : List Host.Cell) :
    (List.range cfg.nbits.toNat).countP (fun k => inputSymbol mem k = .logic1) = onesCount cfg mem := by
  simp only [onesCount, inputSymbol_eq_logic1_iff]

/-- R76: the input plans `c0 = NBITS - c1` times Logic0. -/
theorem countP_inputSymbol_logic0 (cfg : ConfigRegs) (mem : List Host.Cell) :
    (List.range cfg.nbits.toNat).countP (fun k => inputSymbol mem k = .logic0) =
      cfg.nbits.toNat - onesCount cfg mem := by
  have hsum := List.length_eq_countP_add_countP (l := List.range cfg.nbits.toNat)
    fun k => decide (bitFetch mem k = 0x31#8)
  simp only [List.length_range, Bool.decide_eq_true, decide_not] at hsum
  simp only [inputSymbol_eq_logic0_iff, onesCount, ne_eq, decide_not]
  omega

/-- Settles O40, by the counts of one block. -/
theorem planLengthAndCounts : Obligations.PlanLengthAndCounts := by
  intro cfg mem
  refine ⟨length_symbolPlan cfg mem, ?header, ?gap, ?logic1, ?logic0⟩
  all_goals rw [count_symbolPlan, count_planBlock]
  case header => simp [countP_inputSymbol_eq_zero]
  case gap => simp [countP_inputSymbol_eq_zero]
  case logic1 => simp [countP_inputSymbol_logic1]
  case logic0 => simp [countP_inputSymbol_logic0]

/-! ### The empty input -/

/-- R142: `BAD_NBITS` is raised only for an input longer than `BITMEM` is deep. -/
theorem lt_nbits_of_validate_eq_badNbits {cfg : ConfigRegs} {depth : BitVec 16}
    (h : validate cfg depth = .badNbits) : depth.toNat < cfg.nbits.toNat := by
  unfold validate at h
  split_ifs at h with _ _ _ _ hlt
  exact hlt

/-- R77: with no input a block is a Gap. -/
theorem planBlock_of_nbits_eq_zero {cfg : ConfigRegs} (h : cfg.nbits = 0) (mem : List Host.Cell) :
    planBlock cfg mem = [.gap] := by
  rw [planBlock, h]
  rfl

/-- R77: so the plan is the Header and the Gaps. -/
theorem symbolPlan_of_nbits_eq_zero {cfg : ConfigRegs} (h : cfg.nbits = 0) (mem : List Host.Cell) :
    symbolPlan cfg mem = .header :: List.replicate cfg.repeatCount.toNat .gap := by
  rw [symbolPlan, planBlock_of_nbits_eq_zero h, List.flatten_replicate_singleton]

/-- Settles O41: no depth is below `NBITS = 0`, and each block is a Gap. -/
theorem emptyInputPlansHeaderAndGaps : Obligations.EmptyInputPlansHeaderAndGaps := by
  intro cfg mem h
  refine ⟨fun depth hbad => ?_, symbolPlan_of_nbits_eq_zero h mem, ?_⟩
  · have hlt := lt_nbits_of_validate_eq_badNbits hbad
    simp [h] at hlt
  · rw [length_symbolPlan, h]
    simp

end Sys2Proof.Machine

/-! PROOFS. The timing resolver (spec/41_timing_resolver.md R85, R86, R88 to R90): the sample count as a rounded
quotient and its properties, and the ordering function. -/

namespace Sys2Proof.Machine

/-! ### The sample count -/

/-- Settles O26: with the half added, the quotient is `fs * us + 500000` over `1000000`. -/
theorem sampleCountIsRoundedHalfUp : Obligations.SampleCountIsRoundedHalfUp := by
  intro fs us
  have hsum : (fs : ℚ) * us / 1000000 + 1 / 2 = ((fs * us + 500000 : ℕ) : ℚ) / (1000000 : ℕ) := by
    push_cast
    ring
  rw [hsum, Rat.floor_natCast_div_natCast]
  rfl

/-- R85: the sample count is the library's rounding, half up, of the exact quotient. -/
theorem nsamp_eq_round (fs us : Nat) : (nsamp fs us : Int) = round ((fs : ℚ) * us / 1000000) :=
  (sampleCountIsRoundedHalfUp fs us).trans (round_eq _).symm

/-- R86 a: the sample count is monotone in the sample rate and in the duration. -/
theorem nsamp_mono {fs fs' us us' : Nat} (hfs : fs ≤ fs') (hus : us ≤ us') : nsamp fs us ≤ nsamp fs' us' :=
  Nat.div_le_div_right (Nat.add_le_add_right (Nat.mul_le_mul hfs hus) 500000)

/-- R86 b: it is within one half of the exact quotient. -/
theorem abs_nsamp_sub_le (fs us : Nat) : |(nsamp fs us : ℚ) - (fs : ℚ) * us / 1000000| ≤ 1 / 2 := by
  have hround : (nsamp fs us : ℚ) = (round ((fs : ℚ) * us / 1000000) : Int) := mod_cast nsamp_eq_round fs us
  rw [hround, abs_sub_comm]
  exact abs_sub_round _

/-- R86 c: it is zero exactly below half a sample. -/
theorem nsamp_eq_zero_iff (fs us : Nat) : nsamp fs us = 0 ↔ fs * us < 500000 := by
  rw [nsamp, Nat.div_eq_zero_iff]
  omega

/-- R86 d: two counts rounded each on its own differ from the count of the two durations together by at most 1. -/
theorem nsamp_add_bounds (fs us us' : Nat) :
    nsamp fs us + nsamp fs us' ≤ nsamp fs (us + us') + 1 ∧
      nsamp fs (us + us') ≤ nsamp fs us + nsamp fs us' + 1 := by
  unfold nsamp
  rw [Nat.mul_add]
  omega

/-- Settles O27: each property is a lemma above, and a symbol's bytes are two for each of its pairs. -/
theorem sampleCountProperties : Obligations.SampleCountProperties := fun fs us =>
  ⟨rfl, fun _ _ => nsamp_mono, abs_nsamp_sub_le fs us, nsamp_eq_zero_iff fs us, nsamp_add_bounds fs us,
    length_symbolBytes⟩

/-! ### The ordering function -/

/-- R88: what is loaded for a duration register is its sample count, which fits. -/
theorem countOf_toNat (cfg : ConfigRegs) (us : BitVec 32) :
    (countOf cfg us.toNat).toNat = nsamp cfg.sampleRate.toNat us.toNat := by
  rw [countOf, BitVec.toNat_ofNat]
  exact Nat.mod_eq_of_lt (nsamp_lt _ us)

section
variable {cfg : ConfigRegs} {c : SymbolKind}

/-- R89, R90: with `HIGH_FIRST` set, segment 0 is the waveform and segment 1 the silence. -/
theorem segmentOf_of_highFirst_eq_one (h : (profileOf cfg c).highFirst = 1) :
    segmentOf cfg c 0 = ⟨.wav, countOf cfg (profileOf cfg c).highUs.toNat⟩ ∧
      segmentOf cfg c 1 = ⟨.sil, countOf cfg (profileOf cfg c).lowUs.toNat⟩ := by
  simp [segmentOf, h]

/-- R89, R90: with `HIGH_FIRST` clear, segment 0 is the silence and segment 1 the waveform. -/
theorem segmentOf_of_highFirst_eq_zero (h : (profileOf cfg c).highFirst = 0) :
    segmentOf cfg c 0 = ⟨.sil, countOf cfg (profileOf cfg c).lowUs.toNat⟩ ∧
      segmentOf cfg c 1 = ⟨.wav, countOf cfg (profileOf cfg c).highUs.toNat⟩ := by
  simp [segmentOf, h]

end

/-- Settles O16, by the value of `HIGH_FIRST`; each count is loaded as it is. -/
theorem segmentOrderFollowsHighFirst : Obligations.SegmentOrderFollowsHighFirst := by
  refine fun cfg c => ⟨fun hone => ?waveformFirst, fun hzero => ?silenceFirst⟩
  case waveformFirst =>
    obtain ⟨hwav, hsil⟩ := segmentOf_of_highFirst_eq_one hone
    rw [hwav, hsil]
    exact ⟨⟨rfl, countOf_toNat _ _⟩, rfl, countOf_toNat _ _⟩
  case silenceFirst =>
    obtain ⟨hsil, hwav⟩ := segmentOf_of_highFirst_eq_zero hzero
    rw [hsil, hwav]
    exact ⟨⟨rfl, countOf_toNat _ _⟩, rfl, countOf_toNat _ _⟩

end Sys2Proof.Machine

/-! PROOFS. The waveform synthesizer (spec/42_waveform_synth.md R102, R104 to R108): silence, the carrier as the rounded
real sine, and the clamp. -/

namespace Sys2Proof.Machine

/-! ### Silence -/

/-- R102, R111: `SIL n` executes a segment of silence. -/
theorem exec_sil (n : Count) (s : State) : exec (.sil n) s = .next (executeSegment ⟨.sil, n⟩ s) := rfl

/-- Settles O17: the descriptor has `KIND` 0, and a whole segment of silence is `2n` zero bytes. -/
theorem silAppendsZeroPairs : Obligations.SilAppendsZeroPairs := by
  intro s n
  rw [decode_seg, decodeSeg_append, exec_sil, executeSegment_eq]
  exact ⟨rfl, _, rfl, rfl⟩

/-! ### The carrier as the rounded real sine -/

open Real

/-- R8, R105: the rational rows of R107's table, rounded half up. -/
theorem halfScaled_eq_round (negative : Bool) (twiceSine amp : Nat) :
    halfScaled negative twiceSine amp =
      round ((if negative then -1 else 1) * (twiceSine / 2 : ℝ) * (amp / 2)) := by
  have hfloor : ∀ m : Int, (m + 2) / 4 = round ((m : ℝ) / 4) := fun m => by
    have hsum : (m : ℝ) / 4 + 1 / 2 = ((m + 2 : Int) : ℝ) / (4 : Nat) := by push_cast; ring
    rw [round_eq, hsum, Int.floor_div_natCast, Int.floor_intCast]
    rfl
  rw [halfScaled, hfloor]
  congr 1
  cases negative
  case false => simp only [Bool.false_eq_true, if_false]; push_cast; ring
  case true => simp only [if_true]; push_cast; ring

/-- R107: off the rational sines the level is less than a half away from the scaled cosine. -/
theorem abs_scaledCos_sub_sineLevel_lt {p q : Nat} (amp : Nat) (h : OffTable p q) :
    |cos (turnAngle p q) * (amp / 2) - sineLevel p q amp h| < 1 / 2 := by
  obtain ⟨hlow, hhigh⟩ := sineLevel_bounds p q amp h
  rw [mul_div_assoc] at hlow hhigh
  refine abs_sub_lt_iff.2 ⟨by linarith, ?_⟩
  rcases hlow with hzero | hlow
  · have hcos : 0 < cos (turnAngle p q) := by
      obtain ⟨-, hquarter, -, -, hne⟩ := h
      exact turnAngle_pos_of_lt (lt_of_le_of_ne hquarter hne)
    have hscaled : 0 ≤ cos (turnAngle p q) * (amp / 2) := by positivity
    rw [hzero, Nat.cast_zero]
    linarith
  · linarith

/-- An integer less than a half away is the rounded value. -/
theorem round_eq_of_abs_sub_lt {x : ℝ} {k : Int} (h : |x - k| < 1 / 2) : round x = k := by
  obtain ⟨hx, hk⟩ := abs_sub_lt_iff.1 h
  exact round_eq_iff.2 ⟨by linarith, by linarith⟩

/-- R105, R107: the sample from its angle to the nearest peak or trough, row by row of R107's table. -/
theorem carrierFromPeak_eq_round (negative : Bool) {p den : Nat} (amp : Nat) (hden : 0 < den) (hp : p ≤ den) :
    carrierFromPeak negative p den amp hden hp =
      round ((if negative then -1 else 1) * cos (turnAngle p (4 * den)) * (amp / 2)) := by
  unfold carrierFromPeak
  by_cases hpeak : p = 0
  · rw [dif_pos hpeak, halfScaled_eq_round, hpeak]
    simp [turnAngle]
  by_cases hsixth : 6 * p = 4 * den
  · have hangle : turnAngle p (4 * den) = π / 3 := by
      have hp0 : (p : ℝ) ≠ 0 := mod_cast hpeak
      rw [← hsixth, turnAngle]
      push_cast
      field_simp
      norm_num
    rw [dif_neg hpeak, dif_pos hsixth, halfScaled_eq_round, hangle, cos_pi_div_three, Nat.cast_one]
  by_cases hquarter : 4 * p = 4 * den
  · rw [dif_neg hpeak, dif_neg hsixth, dif_pos hquarter, turnAngle_zero_of_eq hquarter (by omega)]
    simp
  rw [dif_neg hpeak, dif_neg hsixth, dif_neg hquarter]
  have hlevel := abs_scaledCos_sub_sineLevel_lt amp ⟨by omega, by omega, hpeak, hsixth, hquarter⟩
  refine (round_eq_of_abs_sub_lt ?_).symm
  cases negative
  case false => simpa using hlevel
  case true => rw [← abs_neg]; simpa [sub_eq_add_neg, add_comm] using hlevel

/-- R105: the sample of a number of turns. -/
theorem carrierOfTurn_eq_round (num amp : Nat) {den : Nat} (hden : 0 < den) :
    carrierOfTurn num den amp hden = round (sin (2 * π * (num / den)) * (amp / 2)) := by
  rw [carrierOfTurn, carrierFromPeak_eq_round, sin_turn num den hden]

/-- R104: the phase of a local index, in turns. -/
theorem thetaNum_div {fs phases : Nat} (fd i : Nat) (hfs : 0 < fs) (hphases : 0 < phases) :
    (thetaNum fs fd phases i : ℝ) / (fs * phases : Nat) =
      (i : ℝ) * fd / fs + ((i % phases : Nat) : ℝ) / phases := by
  unfold thetaNum
  push_cast
  field_simp

section
variable {fs fd phases : Nat} (amp i : Nat) (hfs : 0 < fs) (hfd : 0 < fd) (hphases : 0 < phases)
include hfs hfd hphases

/-- R106: the carrier is the sine of the phase, scaled by half the amplitude and rounded half up. -/
theorem carrier_eq_round :
    carrier fs fd phases amp i =
      round (sin (2 * π * ((i : ℝ) * fd / fs + ((i % phases : Nat) : ℝ) / phases)) * (amp / 2)) := by
  rw [carrier, dif_pos ⟨hfs, hfd, hphases⟩, carrierOfTurn_eq_round, thetaNum_div fd i hfs hphases]

/-- R106: the bounds of the carrier. -/
theorem carrier_bounds :
    -((amp / 2 : Nat) : Int) ≤ carrier fs fd phases amp i ∧
      carrier fs fd phases amp i ≤ ((amp + 1) / 2 : Nat) := by
  rw [carrier_eq_round amp i hfs hfd hphases, round_eq]
  generalize 2 * π * ((i : ℝ) * fd / fs + ((i % phases : Nat) : ℝ) / phases) = phase
  have hlow := neg_one_le_sin phase
  have hhigh := sin_le_one phase
  have hA : (0 : ℝ) ≤ amp / 2 := by positivity
  have hfloor : (amp : ℝ) ≤ 2 * (amp / 2 : Nat) + 1 := by exact_mod_cast (by omega : amp ≤ 2 * (amp / 2) + 1)
  have hceil : (amp : ℝ) ≤ 2 * ((amp + 1) / 2 : Nat) := by exact_mod_cast (by omega : amp ≤ 2 * ((amp + 1) / 2))
  constructor
  · rw [Int.le_floor, Int.cast_neg, Int.cast_natCast]
    nlinarith
  · rw [← Int.lt_add_one_iff, Int.floor_lt, Int.cast_add, Int.cast_one, Int.cast_natCast]
    nlinarith

/-- R106: the phase of local index 0 is 0. -/
theorem carrier_index_zero : carrier fs fd phases amp 0 = 0 := by
  simp [carrier_eq_round amp 0 hfs hfd hphases]

/-- R106: amplitude 0 scales every sine to 0. -/
theorem carrier_amp_zero : carrier fs fd phases 0 i = 0 := by
  simp [carrier_eq_round 0 i hfs hfd hphases]

end

/-- Settles O21, with the rounding as a floor. -/
theorem carrierIsTheRoundedSine : Obligations.CarrierIsTheRoundedSine :=
  fun _ _ _ amp i hfs hfd hphases =>
    ⟨(carrier_eq_round amp i hfs hfd hphases).trans (round_eq _), carrier_bounds amp i hfs hfd hphases,
      carrier_index_zero amp hfs hfd hphases, carrier_amp_zero i hfs hfd hphases⟩

/-! ### The clamp -/

/-- R108: the clamp changes no legal sample. -/
theorem clamp_of_legal {v : Int} (hlo : -90 ≤ v) (hhi : v ≤ 90) : clamp v = v := by
  unfold clamp Config.sampleMax Config.sampleMin
  omega

/-- Settles O24: up to amplitude 180 the carrier's bounds are within the legal range. -/
theorem samplesAreClamped : Obligations.SamplesAreClamped := by
  intro cfg i c
  refine ⟨rfl, segmentSample_legal cfg .wav i, fun hfs hfd hphases hamp => ?_⟩
  obtain ⟨hlo, hhi⟩ := carrier_bounds cfg.amplitude.toNat i
    (BitVec.toNat_pos_of_ne_zero hfs) (BitVec.toNat_pos_of_ne_zero hfd) (BitVec.toNat_pos_of_ne_zero hphases)
  exact clamp_of_legal (by omega) (by omega)

end Sys2Proof.Machine

/-! PROOFS. The host interface (spec/43_host_interface.md R125, R128 to R131): writes to the register space and to
`BITMEM`, and the three commands. -/

namespace Sys2Proof.Machine

/-! ### The register space -/

/-- The number of a register (R33). -/
def regNumber : Reg → RegNumber
  | .ctrl => 0x00
  | .status => 0x01
  | .outCount => 0x02
  | .edgeUs => 0x03
  | .sampleRate => 0x04
  | .dataFreq => 0x05
  | .numPhases => 0x06
  | .repeatCount => 0x07
  | .amplitude => 0x08
  | .nbits => 0x09
  | .highUs c => 0x10 + 4 * (symbolCode c).setWidth 6
  | .lowUs c => 0x11 + 4 * (symbolCode c).setWidth 6
  | .highFirst c => 0x12 + 4 * (symbolCode c).setWidth 6

/-- R33: the register map gives each register its one number. -/
theorem regAt_eq_some_iff {num : RegNumber} {r : Reg} : regAt num = some r ↔ num = regNumber r := by
  constructor
  case mp =>
    intro h
    unfold regAt at h
    split at h <;> cases h <;> exact BitVec.eq_of_toNat_eq ‹_›
  case mpr =>
    rintro rfl
    cases r
    case highUs c | lowUs c | highFirst c => cases c <;> rfl
    all_goals rfl

/-- The registers marked `RW` in R33, in the order of their numbers. -/
def writableRegs : List Reg :=
  [.sampleRate, .dataFreq, .numPhases, .repeatCount, .amplitude, .nbits,
    .highUs .logic0, .lowUs .logic0, .highFirst .logic0, .highUs .logic1, .lowUs .logic1, .highFirst .logic1,
    .highUs .header, .lowUs .header, .highFirst .header, .lowUs .gap, .highFirst .gap]

theorem mem_writableRegs {r : Reg} : r ∈ writableRegs ↔ regWritable r = true := by
  cases r
  case highUs c | lowUs c | highFirst c => cases c <;> decide
  all_goals decide

/-- R126: a number that names a register reads that register. -/
theorem regRead_of_regAt {num : RegNumber} {r : Reg} (h : regAt num = some r) (s : State) :
    regRead s num = regValue s r := by
  simp [regRead, h]

/-- R33: an unused number reads 0. -/
theorem regRead_of_unused {num : RegNumber} (h : regAt num = none) (s : State) : regRead s num = 0 := by
  simp [regRead, h]

/-- R125: after a write, a writable register reads the value truncated to its width, and every other register as
before. -/
theorem regValue_writeReg (r r' : Reg) (v : RegValue) (s : State) :
    regValue (s.withCfg (writeReg r v s.cfg)) r' =
      if r' = r ∧ regWritable r = true then (v.setWidth (regWidth r)).setWidth 64 else regValue s r' := by
  unfold writeReg
  cases r'
  case highUs c | lowUs c | highFirst c => cases c <;> split <;> rfl
  all_goals split <;> rfl

/-- R18 to R22: a register not marked `RW` stores nothing. -/
theorem writeReg_of_readOnly (v : RegValue) (cfg : ConfigRegs) :
    ∀ {r : Reg}, regWritable r = false → writeReg r v cfg = cfg
  | .ctrl, _ | .status, _ | .outCount, _ | .edgeUs, _ | .highUs .gap, _ => rfl

/-! ### `RegWrite` -/

/-- R33: the registers marked `RW`, by number and width. -/
theorem exists_writableReg_iff (num : RegNumber) (width : Nat) :
    (∃ r, regAt num = some r ∧ regWritable r = true ∧ regWidth r = width) ↔
      (num, width) ∈ writableRegs.map fun r => (regNumber r, regWidth r) := by
  simp only [regAt_eq_some_iff, ← mem_writableRegs, List.mem_map, Prod.mk.injEq]
  exact exists_congr fun r => ⟨fun ⟨hnum, hr, hwidth⟩ => ⟨hr, hnum.symm, hwidth⟩,
    fun ⟨hr, hnum, hwidth⟩ => ⟨hnum.symm, hr, hwidth⟩⟩

/-- R125: a write to a register other than the command port, by the gate. -/
theorem hostStep_regWrite_of_regAt {num : RegNumber} {r : Reg} (h : regAt num = some r) (hr : r ≠ .ctrl)
    (v : RegValue) (s : State) :
    hostStep (.regWrite num v) s =
      .next (if gateOpen s.run then s.withCfg (writeReg r v s.cfg) else s) := by
  rw [hostStep, hostRegWrite, h]
  cases r
  case ctrl => exact absurd rfl hr
  all_goals rfl

/-- R125: a write to an unused number has no effect. -/
theorem hostStep_regWrite_of_unused {num : RegNumber} (h : regAt num = none) (v : RegValue) (s : State) :
    hostStep (.regWrite num v) s = .next s := by
  rw [hostStep, hostRegWrite, h]

/-- R125: a write to an open `RW` register. -/
theorem hostStep_regWrite_of_writable {num : RegNumber} {r : Reg} (h : regAt num = some r) (hr : regWritable r = true)
    {s : State} (hg : gateOpen s.run = true) (v : RegValue) :
    hostStep (.regWrite num v) s = .next (s.withCfg (writeReg r v s.cfg)) := by
  have hctrl : r ≠ .ctrl := by rintro rfl; cases hr
  rw [hostStep_regWrite_of_regAt h hctrl, if_pos hg]

/-- R125, R33: the number written then reads the value modulo 2 to the register's width. -/
theorem regRead_writeReg_self {num : RegNumber} {r : Reg} (h : regAt num = some r) (hr : regWritable r = true)
    (v : RegValue) (s : State) :
    regRead (s.withCfg (writeReg r v s.cfg)) num = BitVec.ofNat 64 (v.toNat % 2 ^ regWidth r) := by
  rw [regRead_of_regAt h, regValue_writeReg, if_pos ⟨rfl, hr⟩, ← BitVec.toNat_setWidth, BitVec.ofNat_toNat]

/-- R125: every other number reads as before. -/
theorem regRead_writeReg_of_ne {num num' : RegNumber} {r : Reg} (h : regAt num = some r) (hne : num' ≠ num)
    (v : RegValue) (s : State) : regRead (s.withCfg (writeReg r v s.cfg)) num' = regRead s num' := by
  cases h' : regAt num' with
  | none => rw [regRead_of_unused h', regRead_of_unused h']
  | some r' =>
    have hr' : r' ≠ r := by
      rintro rfl
      exact hne ((regAt_eq_some_iff.1 h').trans (regAt_eq_some_iff.1 h).symm)
    rw [regRead_of_regAt h', regRead_of_regAt h', regValue_writeReg, if_neg fun hand => hr' hand.1]

/-- R125: any other write has no effect. -/
theorem hostStep_regWrite_no_effect {num : RegNumber} {s : State} (h0 : num ≠ 0)
    (h : ∀ r, regAt num = some r → regWritable r = false ∨ gateOpen s.run = false) (v : RegValue) :
    hostStep (.regWrite num v) s = .next s := by
  cases hnum : regAt num with
  | none => exact hostStep_regWrite_of_unused hnum v s
  | some r =>
    have hctrl : r ≠ .ctrl := by
      rintro rfl
      exact h0 (regAt_eq_some_iff.1 hnum)
    rw [hostStep_regWrite_of_regAt hnum hctrl]
    obtain hr | hg := h r hnum
    · rw [writeReg_of_readOnly v s.cfg hr]
      exact congrArg _ (ite_self s)
    · rw [hg]
      rfl

/-- Settles O6: the `RW` registers are those of `writableRegs`, whose numbers and widths are the listed ones; a write is
the command, the stored value, or without effect. -/
theorem regWriteFollowsItsRule : Obligations.RegWriteFollowsItsRule := by
  refine ⟨exists_writableReg_iff, fun s num v => ⟨?command, fun r h hr hg => ?stored, fun h0 h => ?ignored⟩⟩
  case command =>
    rintro rfl
    exact hostStep_regWrite_ctrl v s
  case stored =>
    exact ⟨_, hostStep_regWrite_of_writable h hr hg v, regRead_writeReg_self h hr v s,
      fun _ hne => regRead_writeReg_of_ne h hne v s, rfl⟩
  case ignored => exact hostStep_regWrite_no_effect h0 h v

/-! ### `BitWrite` -/

/-- R128, R73: the core reads the character written. -/
theorem bitFetch_memWrite_self (k : Nat) (ch : Byte) (mem : List Host.Cell) :
    bitFetch (memWrite k ch mem) k = ch := by
  rw [bitFetch, memLookup_memWrite_self, Option.getD_some]

/-- R128, R73: it reads every other entry as before. -/
theorem bitFetch_memWrite_of_ne {k j : Nat} (h : j ≠ k) (ch : Byte) (mem : List Host.Cell) :
    bitFetch (memWrite k ch mem) j = bitFetch mem j := by
  rw [bitFetch, memLookup_memWrite_of_ne h, bitFetch]

/-- R128: `BitWrite`, by the depth and the gate. -/
theorem hostStep_bitWrite (k : Nat) (ch : Byte) (s : State) :
    hostStep (.bitWrite k ch) s =
      .next (if k < s.bitmemDepth.toNat ∧ gateOpen s.run then s.withBitmem (memWrite k ch s.bitmem) else s) :=
  rfl

/-- Settles O9, by the laws of `BITMEM`. -/
theorem bitWriteStoresOneEntry : Obligations.BitWriteStoresOneEntry := by
  intro s k ch
  rw [hostStep_bitWrite]
  refine ⟨fun hk hg => ?stored, fun hshut => ?ignored⟩
  case stored =>
    rw [if_pos ⟨hk, hg⟩]
    exact ⟨_, rfl, bitFetch_memWrite_self k ch s.bitmem,
      fun _ hne => bitFetch_memWrite_of_ne hne ch s.bitmem, rfl⟩
  case ignored => rw [if_neg hshut]

/-! ### The commands -/

/-- R127: the gate is open in `IDLE` and `DONE`. -/
theorem gateOpen_eq_true_iff {r : RunState} : gateOpen r = true ↔ r = .idle ∨ r = .done := by
  cases r <;> decide

/-- R127: it is closed in `BUSY` and `FAULT`. -/
theorem gateOpen_eq_false_iff {r : RunState} : gateOpen r = false ↔ r = .busy ∨ r = .fault := by
  cases r <;> decide

/-- R129: with the gate closed, `START` is ignored. -/
theorem exec_start_of_gateClosed {s : State} (hg : gateOpen s.run = false) : exec .start s = .next s := by
  obtain ⟨-, hexec⟩ | ⟨hopen, -⟩ | ⟨hopen, -⟩ := execStart_cases s
  · exact hexec
  all_goals exact absurd (hopen.symm.trans hg) (by decide)

/-- Settles O30, by the gate and the configuration; the two states written out are `beginRun` and `raiseDomainError` of the
emptied `OUT`. -/
theorem startFollowsItsRule : Obligations.StartFollowsItsRule :=
  ⟨by decide, fun _ =>
    ⟨fun hshut => exec_start_of_gateClosed (gateOpen_eq_false_iff.2 hshut),
      exec_start_of_valid,
      fun hopen hinvalid => exec_start_of_invalid (gateOpen_eq_true_iff.2 hopen) hinvalid⟩⟩

/-- Settles O29: `NOP` answers the state itself. -/
theorem nopHasNoEffect : Obligations.NopHasNoEffect :=
  ⟨by decide, fun _ => rfl⟩

/-- R131: `RESET` answers the reset state, whatever its `START` bit. -/
theorem exec_reset (b : BitVec 1) (s : State) : exec (.reset b) s = .next (resetState s) := rfl

/-- R155: so does the hardware reset. -/
theorem hardwareReset_eq (s : State) : hardwareReset s = .next (resetState s) := rfl

/-- Settles O31: both resets answer the reset state, whose fields are known. -/
theorem resetClearsAllButBitmem : Obligations.ResetClearsAllButBitmem :=
  ⟨by decide, by decide, fun s b => ⟨resetState s, exec_reset b s, resetState_cfg s, resetState_run s,
    resetState_cause s, resetState_outCount s, resetState_out s, resetState_seg s, resetState_pc s,
    regRead_edgeUs _, resetState_bitmem s, hardwareReset_eq s⟩⟩

end Sys2Proof.Machine

/-! PROOFS. `validate()` against the rows of R142 (spec/60_exceptions.md R143). -/

namespace Sys2Proof.Machine

/-- R142: no two causes share a code. -/
theorem causeCode_injective : Function.Injective causeCode := by
  intro c c' h
  revert h
  cases c <;> cases c' <;> decide

/-- R143: the row reported applies. -/
theorem causeHolds_validate {cfg : ConfigRegs} {depth : BitVec 16} (hv : validate cfg depth ≠ .none) :
    causeHolds cfg depth (validate cfg depth) := by
  unfold validate at hv ⊢
  split_ifs at hv ⊢
  case neg => exact absurd rfl hv
  all_goals assumption

/-- R143: a row that applies ends the search, so what is reported is that row or one tested before it. -/
theorem validate_of_causeHolds {cfg : ConfigRegs} {depth : BitVec 16} {c : Cause} (hc : causeHolds cfg depth c) :
    validate cfg depth ≠ .none ∧ causeCode (validate cfg depth) ≤ causeCode c := by
  cases c
  case none => exact hc.elim
  case zeroSampleRate =>
    rw [validate_of_sampleRate_eq_zero hc]
    decide
  all_goals
    dsimp only [causeHolds] at hc
    rw [validate, if_pos hc]
    split_ifs <;> decide

/-- R143: a valid configuration is one to which no row applies. -/
theorem validate_eq_none_iff {cfg : ConfigRegs} {depth : BitVec 16} :
    validate cfg depth = .none ↔ ∀ c, ¬ causeHolds cfg depth c :=
  ⟨fun hv _ hc => (validate_of_causeHolds hc).1 hv,
    fun hnone => by_contra fun hv => hnone _ (causeHolds_validate hv)⟩

/-- R143: a cause is reported exactly when its row applies and no row with a lower code does. -/
theorem validate_eq_iff {cfg : ConfigRegs} {depth : BitVec 16} {c : Cause} (hne : c ≠ .none) :
    validate cfg depth = c ↔
      causeHolds cfg depth c ∧ ∀ c', causeHolds cfg depth c' → causeCode c ≤ causeCode c' := by
  constructor
  · rintro rfl
    exact ⟨causeHolds_validate hne, fun _ hc' => (validate_of_causeHolds hc').2⟩
  · rintro ⟨hc, hlowest⟩
    obtain ⟨hv, hle⟩ := validate_of_causeHolds hc
    exact causeCode_injective (BitVec.le_antisymm hle (hlowest _ (causeHolds_validate hv)))

/-- Settles O32: what is reported is a row that applies, and no row that applies has a lower code. -/
theorem validateReportsLowestCause : Obligations.ValidateReportsLowestCause :=
  fun _ _ => ⟨validate_eq_none_iff, fun _ => validate_eq_iff⟩

end Sys2Proof.Machine

/-! PROOFS. Encoding (spec/30_encoding.md R55 to R58, R62 to R64): decoding and encoding are inverse, format by
format. -/

namespace Sys2Proof.Machine

/-- R62: a word with the `RESET` bit decodes to `RESET`, its `START` bit kept. -/
theorem decodeCtrl_append (b : BitVec 1) : decodeCtrl (1#1 ++ b : BitVec 2) = .reset b := by
  revert b
  decide

/-- R56: a well-formed `BITX` stands for neither '1' nor '0'. -/
theorem wf_bitx_iff {ch : Byte} : (Instr.bitx ch).wf = true ↔ ch ≠ 0x31#8 ∧ ch ≠ 0x30#8 := by
  simp [Instr.wf]

/-- Settles O1, by the instruction: the operands of `BITX`, of the descriptors and of `RESET` are kept at every value,
and the other words are fixed. -/
theorem decodeOfEncode : Obligations.DecodeOfEncode := by
  intro i hwf
  cases i
  case bitx ch =>
    obtain ⟨h1, h0⟩ := wf_bitx_iff.1 hwf
    exact decodeChar_of_ne h1 h0
  case sil n => exact decodeSeg_append 0#1 n
  case wav n => exact decodeSeg_append 1#1 n
  case reset b => exact decodeCtrl_append b
  all_goals rfl

/-- R58: a descriptor is its `KIND` above its count. -/
theorem kind_append_count (w : BitVec 46) : (w.extractLsb' 45 1 ++ w.extractLsb' 0 45 : BitVec 46) = w :=
  (BitVec.extractLsb'_append_extractLsb'_eq_extractLsb' (len₂ := 1) (Nat.zero_add 45).symm).trans
    BitVec.extractLsb'_eq_self

/-- What R64 asks of the instruction decoded from the word of value `value` in a format. -/
def DecodedWithoutLoss (f : Format) (value : Nat) (i : Instr) : Prop :=
  i.wf = true ∧ i.format = f ∧ (encode i).toNat = value

/-- R56, R64: a character is '1', '0', or kept in `BITX`. -/
theorem decodeChar_without_loss (w : BitVec 8) : DecodedWithoutLoss .char w.toNat (decodeChar w) := by
  by_cases h1 : w = 0x31#8
  · subst h1; exact ⟨rfl, rfl, rfl⟩
  by_cases h0 : w = 0x30#8
  · subst h0; exact ⟨rfl, rfl, rfl⟩
  rw [decodeChar_of_ne h1 h0]
  exact ⟨wf_bitx_iff.2 ⟨h1, h0⟩, rfl, rfl⟩

/-- R57, R64: the four words of `SYM`. -/
theorem decodeSym_without_loss (w : BitVec 2) : DecodedWithoutLoss .sym w.toNat (decodeSym w) := by
  revert w
  unfold DecodedWithoutLoss
  decide

/-- R58, R64: a descriptor keeps its `KIND` and its count. -/
theorem decodeSeg_without_loss (w : BitVec 46) : DecodedWithoutLoss .seg w.toNat (decodeSeg w) := by
  rw [← kind_append_count w, decodeSeg_append]
  obtain hkind | hkind : w.extractLsb' 45 1 = 0#1 ∨ w.extractLsb' 45 1 = 1#1 := by bv_omega
  · rw [hkind]; exact ⟨rfl, rfl, rfl⟩
  · rw [hkind]; exact ⟨rfl, rfl, rfl⟩

/-- R62, R64: the four words of `CTRL`. -/
theorem decodeCtrl_without_loss (w : BitVec 2) : DecodedWithoutLoss .ctrl w.toNat (decodeCtrl w) := by
  revert w
  unfold DecodedWithoutLoss
  decide

/-- Settles O2, format by format. -/
theorem everyValueDecodesWithoutLoss : Obligations.EveryValueDecodesWithoutLoss
  | .char, w => decodeChar_without_loss w
  | .sym, w => decodeSym_without_loss w
  | .seg, w => decodeSeg_without_loss w
  | .ctrl, w => decodeCtrl_without_loss w

/-- Settles O5: the words are fixed, so each side of each equation computes. -/
theorem writtenOutWordsDecode : Obligations.WrittenOutWordsDecode := by
  unfold Obligations.WrittenOutWordsDecode
  decide

end Sys2Proof.Machine

/-! PROOFS. The core (spec/42_waveform_synth.md R112, 40_symbol_planner.md R78): each branch of its step, when it has
one, and a fused turn of it as a number of its steps. -/

namespace Sys2Proof.Machine

/-! ### The branches of a step -/

/-- R112: below the end of the segment the core emits a pair. -/
theorem coreStep_of_inside {s : State} (hb : s.run = .busy) (hidx : s.seg.idx.toNat < s.seg.n.toNat) :
    coreStep s = .next (emitPair s) := by
  rw [coreStep, if_pos hb, if_pos hidx]

/-- R112: at its end the core advances. -/
theorem coreStep_of_end {s : State} (hb : s.run = .busy) (hidx : s.seg.n.toNat ≤ s.seg.idx.toNat) :
    coreStep s = advanceStep s := by
  rw [coreStep, if_pos hb, if_neg hidx.not_gt]

/-- R134: out of `TRAIL` the advance ends the run. -/
theorem advanceStep_of_trail {s : State} (ht : s.pc.ph = .trail) : advanceStep s = .next (s.withRun .done) := by
  rw [advanceStep_eq, if_pos ht]

/-- R78, R111: out of any other phase it loads the segment of the next position. -/
theorem advanceStep_of_not_trail {s : State} (ht : s.pc.ph ≠ .trail) :
    advanceStep s = .next (loadSegment (positionSegment s.cfg s.bitmem (advance s.cfg s.pc))
      (s.withPc (advance s.cfg s.pc))) := by
  rw [advanceStep_eq, if_neg ht]

/-- Settles O34: the pair emitted is that of the current sample, by the kind of the segment. -/
theorem coreStepEmitsOnePair : Obligations.CoreStepEmitsOnePair := by
  intro s hb hidx v
  have hsample : currentSample s = v := by
    rw [currentSample_eq]
    cases hkind : s.seg.kind <;> simp [v, segmentSample, hkind]
  rw [coreStep_of_inside hb hidx, ← hsample]
  rfl

/-- Settles O35. -/
theorem coreStepAdvancesAndLoads : Obligations.CoreStepAdvancesAndLoads :=
  fun _ hb hidx ht => (coreStep_of_end hb hidx).trans (advanceStep_of_not_trail ht)

/-- Settles O36. -/
theorem coreStepEndsRun : Obligations.CoreStepEndsRun :=
  fun _ hb hidx ht => (coreStep_of_end hb hidx).trans (advanceStep_of_trail ht)

/-- The advance branch always answers a next state. -/
theorem exists_advanceStep (s : State) : ∃ t, advanceStep s = .next t := by
  by_cases ht : s.pc.ph = .trail
  · exact ⟨_, advanceStep_of_trail ht⟩
  · exact ⟨_, advanceStep_of_not_trail ht⟩

/-- R112: in `BUSY` the core has a step. -/
theorem exists_coreStep {s : State} (hb : s.run = .busy) : ∃ t, coreStep s = .next t := by
  by_cases hidx : s.seg.idx.toNat < s.seg.n.toNat
  · exact ⟨_, coreStep_of_inside hb hidx⟩
  · rw [coreStep_of_end hb (not_lt.1 hidx)]
    exact exists_advanceStep s

/-- Settles O37. -/
theorem coreStepsExactlyWhenBusy : Obligations.CoreStepsExactlyWhenBusy :=
  fun _ => ⟨fun ⟨_, h⟩ => (coreStep_cases h).1, exists_coreStep⟩

/-- Settles O38. -/
theorem advanceVisitsPositionsInOrder : Obligations.AdvanceVisitsPositionsInOrder :=
  fun _ _ => advance_next

/-! ### The fused turn -/

/-- The loop of a segment leaves the position and `RUN` (R102, R103). -/
theorem iterate_emitPair_keeps (k : Nat) (s : State) :
    (emitPair^[k] s).pc = s.pc ∧ (emitPair^[k] s).run = s.run := by
  induction k generalizing s with
  | zero => exact ⟨rfl, rfl⟩
  | succ k ih => exact ih (emitPair s)

section
variable (s : State)
@[simp] theorem finishSegment_pc : (finishSegment s).pc = s.pc := (iterate_emitPair_keeps _ s).1
@[simp] theorem finishSegment_run : (finishSegment s).run = s.run := (iterate_emitPair_keeps _ s).2
@[simp] theorem finishSegment_cfg : (finishSegment s).cfg = s.cfg := (finishSegment_frame s).cfg
@[simp] theorem finishSegment_bitmem : (finishSegment s).bitmem = s.bitmem := (finishSegment_frame s).bitmem
end

/-- D20: inside a segment the fused turn is the rest of the segment and the advance. -/
theorem coreInstr_of_inside {s : State} (hb : s.run = .busy) (hidx : s.seg.idx ≠ 0) :
    coreInstr s = advanceStep (finishSegment s) := by
  simp only [coreInstr, fetchInstr, hb, if_true, if_pos hidx]

/-- R75: at the start of a symbol the instruction fetched is the symbol's. -/
theorem fetchInstr_of_symbol {s : State} (hidx : s.seg.idx = 0) (hph : s.pc.ph = .header ∨ s.pc.ph = .block)
    (hseg : s.pc.seg = 0) : fetchInstr s = some (decodeSym (symbolCode (curSymbol s.cfg s.bitmem s.pc))) := by
  rw [fetchInstr, if_neg (not_not.2 hidx), if_pos ⟨hph, hseg⟩]

/-- R58: at the start of any other segment it is the segment's. -/
theorem fetchInstr_of_segment {s : State} (hidx : s.seg.idx = 0)
    (h : ¬((s.pc.ph = .header ∨ s.pc.ph = .block) ∧ s.pc.seg = 0)) :
    fetchInstr s = some (decodeSeg (segWord s.seg)) := by
  rw [fetchInstr, if_neg (not_not.2 hidx), if_neg h]

/-- A fused turn executes the instruction fetched, and then advances. -/
theorem coreInstr_of_fetchInstr {s : State} {i : Instr} (hb : s.run = .busy) (hi : fetchInstr s = some i) :
    coreInstr s = andThen (exec i s) advanceStep := by
  rw [coreInstr, if_pos hb, hi]

/-- From the start of a segment, executing it is finishing it. -/
theorem executeSegment_of_loaded {s : State} {g : Segment} (hidx : s.seg.idx = 0)
    (hg : (⟨s.seg.kind, s.seg.n⟩ : Segment) = g) : executeSegment g s = finishSegment s := by
  rw [executeSegment, ← hg, loadSegment_self s hidx]

/-- R91 to R94, R111: from the start of a symbol, executing it is finishing its first segment, loading its second one at
`SEG` 1, and finishing that. -/
theorem executeSymbol_of_loaded {s : State} {c : SymbolKind} (hidx : s.seg.idx = 0) (hseg : s.pc.seg = 0)
    (hg : (⟨s.seg.kind, s.seg.n⟩ : Segment) = segmentOf s.cfg c 0) :
    executeSymbol c s =
      finishSegment (loadSegment (segmentOf s.cfg c 1) ((finishSegment s).withPc { s.pc with seg := 1 })) := by
  have hpc : s.withPc { s.pc with seg := 0 } = s := by unfold State.withPc; rw [← hseg]
  simp only [executeSymbol, hpc, executeSegment_of_loaded hidx hg, finishSegment_cfg, finishSegment_pc]
  rfl

/-- R78: between the two segments of a symbol `SEG` goes from 0 to 1. -/
theorem advance_of_first_segment (cfg : ConfigRegs) {pc : SeqPos} (hlegal : LegalPos cfg pc)
    (hph : pc.ph = .header ∨ pc.ph = .block) (hseg : pc.seg = 0) : advance cfg pc = { pc with seg := 1 } := by
  obtain ⟨ph, rep, pos, seg⟩ := pc
  obtain rfl : seg = 0 := hseg
  obtain rfl | rfl : ph = .header ∨ ph = .block := hph
  · obtain ⟨rfl, rfl⟩ : rep = 0 ∧ pos = 0 := hlegal
    rfl
  · rfl

/-- R111: at a position of a symbol the segment is one of the symbol's. -/
theorem positionSegment_of_symbol (cfg : ConfigRegs) (mem : List Host.Cell) {pc : SeqPos}
    (hph : pc.ph = .header ∨ pc.ph = .block) :
    positionSegment cfg mem pc = segmentOf cfg (curSymbol cfg mem pc) pc.seg := by
  obtain h | h := hph <;> simp [positionSegment, h]

/-- R112: finishing a segment and leaving it is a positive number of core steps. -/
theorem exists_coreSteps_advance {s : State} (hb : s.run = .busy) (hle : s.seg.idx.toNat ≤ s.seg.n.toNat) :
    ∃ k, 0 < k ∧ advanceStep (finishSegment s) = coreSteps k s :=
  ⟨_, Nat.succ_pos _, (coreSteps_advance s hb hle).symm⟩

/-- R78, R111: out of the first segment of a symbol the core loads the second one. -/
theorem advanceStep_of_first_segment {s : State} (hlegal : LegalPos s.cfg s.pc)
    (hph : s.pc.ph = .header ∨ s.pc.ph = .block) (hseg : s.pc.seg = 0) :
    advanceStep s = .next (loadSegment (segmentOf s.cfg (curSymbol s.cfg s.bitmem s.pc) 1)
      (s.withPc { s.pc with seg := 1 })) := by
  have ht : s.pc.ph ≠ .trail := by obtain h | h := hph <;> simp [h]
  rw [advanceStep_of_not_trail ht, advance_of_first_segment s.cfg hlegal hph hseg,
    positionSegment_of_symbol s.cfg s.bitmem (pc := { s.pc with seg := 1 }) hph]
  rfl

/-- D20: the fused turn at the start of a symbol is the core steps of its first segment and those of its second. -/
theorem coreInstr_of_symbol {s : State} (hb : s.run = .busy) (hlegal : LegalPos s.cfg s.pc)
    (hloaded : (⟨s.seg.kind, s.seg.n⟩ : Segment) = positionSegment s.cfg s.bitmem s.pc) (hidx : s.seg.idx = 0)
    (hph : s.pc.ph = .header ∨ s.pc.ph = .block) (hseg : s.pc.seg = 0) :
    ∃ k, 0 < k ∧ coreInstr s = coreSteps k s := by
  have hfirst : (⟨s.seg.kind, s.seg.n⟩ : Segment) = segmentOf s.cfg (curSymbol s.cfg s.bitmem s.pc) 0 := by
    rw [hloaded, positionSegment_of_symbol _ _ hph, hseg]
  have hsecond := advanceStep_of_first_segment (s := finishSegment s) (by simpa using hlegal) (by simpa using hph)
    (by simpa using hseg)
  rw [finishSegment_cfg, finishSegment_bitmem, finishSegment_pc] at hsecond
  obtain ⟨j, hj0, hj⟩ := exists_coreSteps_advance hb (by simp [hidx])
  obtain ⟨k, -, hk⟩ := exists_coreSteps_advance
    (s := loadSegment (segmentOf s.cfg (curSymbol s.cfg s.bitmem s.pc) 1)
      ((finishSegment s).withPc { s.pc with seg := 1 })) (by simpa using hb) (by simp)
  refine ⟨j + k, by omega, ?_⟩
  rw [coreInstr_of_fetchInstr hb (fetchInstr_of_symbol hidx hph hseg), exec_decodeSym,
    executeSymbol_of_loaded hidx hseg hfirst, coreSteps_add, ← hj, hsecond]
  exact hk

/-- Settles O50: at a symbol the steps of both its segments, elsewhere those that finish the segment, each with an
advance. -/
theorem fusedTurnIsSomeCoreSteps : Obligations.FusedTurnIsSomeCoreSteps := by
  intro s hb hlegal hloaded hle
  by_cases hidx : s.seg.idx = 0
  case neg =>
    rw [coreInstr_of_inside hb hidx]
    exact exists_coreSteps_advance hb hle
  by_cases hsym : (s.pc.ph = .header ∨ s.pc.ph = .block) ∧ s.pc.seg = 0
  case pos => exact coreInstr_of_symbol hb hlegal hloaded hidx hsym.1 hsym.2
  case neg =>
    rw [coreInstr_of_fetchInstr hb (fetchInstr_of_segment hidx hsym), exec_decodeSeg,
      executeSegment_of_loaded hidx rfl]
    exact exists_coreSteps_advance hb hle

/-! ### The instruction a step runs -/

/-- The turn at the head of the agenda is taken (log 3). -/
theorem step_of_agenda_cons {s : State} {a : Turn} {rest : List Turn} (h : s.agenda = a :: rest) :
    step s = takeTurn a (s.withAgenda rest) := by
  rw [step, h]

/-- With an empty agenda the core steps while `BUSY` (R112, log 3). -/
theorem step_of_silent_busy {s : State} (h : s.agenda = []) (hb : s.run = .busy) : step s = coreStep s := by
  rw [step, h]
  exact if_pos hb

/-- R111: the load at an input position is the instruction of its character. -/
theorem loadPosition_of_input {s : State} (hph : s.pc.ph = .block) (hpos : s.pc.pos.toNat < s.cfg.nbits.toNat) :
    loadPosition s = exec (decodeChar (bitFetch s.bitmem s.pc.pos.toNat)) s := by
  simp only [loadPosition, hph, if_pos hpos]

/-- Settles O51, turn by turn: the fused turn, the command, the load at an input position, the two kinds of
instruction fetched, and the silent host. -/
theorem stepRunsTheDecodedInstruction : Obligations.StepRunsTheDecodedInstruction := by
  refine ⟨fun s rest i ha hb hi => ?fused, fun s rest v ha => ?command, fun s ha hb hidx ht hph hpos => ?input,
    fun s => fetchInstr_of_symbol, fun s hidx hnot => ?segment, fun s => step_of_silent_busy⟩
  case fused => exact (step_of_agenda_cons ha).trans (coreInstr_of_fetchInstr hb hi)
  case command => exact step_of_agenda_cons ha
  case input =>
    rw [step_of_silent_busy ha hb, coreStep_of_end hb hidx, advanceStep, if_neg ht]
    exact loadPosition_of_input hph hpos
  case segment =>
    refine fetchInstr_of_segment hidx fun ⟨hph, hseg⟩ => ?_
    obtain h | h | h := hnot
    · simp [h] at hph
    · simp [h] at hph
    · simp [h] at hseg

end Sys2Proof.Machine

/-! PROOFS. The whole-run function (spec/42_waveform_synth.md R113, R114, R116): its length, and how what is still to
come is taken off position by position. -/

namespace Sys2Proof.Machine

/-! ### The total length -/

/-- A sum over symbols, by how often each of the four stands in the list. -/
theorem sum_map_eq_counts (w : SymbolKind → Nat) (l : List SymbolKind) :
    (l.map w).sum = l.count .header * w .header + l.count .gap * w .gap + l.count .logic1 * w .logic1 +
      l.count .logic0 * w .logic0 := by
  induction l with
  | nil => simp
  | cons c l ih =>
    rw [List.map_cons, List.sum_cons, ih]
    cases c <;> simp <;> ring

/-- R95: the bytes of a list of symbols. -/
theorem length_flatMap_symbolBytes (cfg : ConfigRegs) (l : List SymbolKind) :
    (l.flatMap (symbolBytes cfg)).length = 2 * (l.map (symbolPairs cfg)).sum := by
  simp [List.length_flatMap, length_symbolBytes, List.sum_map_mul_left]

/-- R116: the whole output is `N_pairs` pairs, by the counts of R76. -/
theorem length_runBytes (cfg : ConfigRegs) (mem : List Host.Cell) :
    (runBytes cfg mem).length = 2 * totalPairs cfg mem := by
  obtain ⟨-, hheader, hgap, hone, hzero⟩ := planLengthAndCounts cfg mem
  simp only [runBytes, List.length_append, silBytes, List.length_replicate, length_flatMap_symbolBytes,
    sum_map_eq_counts, hheader, hgap, hone, hzero, totalPairs]
  ring

/-- R116: each input position takes at most the longer of the two symbols. -/
theorem totalPairs_le_pairBound (cfg : ConfigRegs) (mem : List Host.Cell) : totalPairs cfg mem ≤ pairBound cfg := by
  have hones : onesCount cfg mem ≤ cfg.nbits.toNat :=
    List.countP_le_length.trans_eq (List.length_range (n := cfg.nbits.toNat))
  have hinput : (cfg.nbits.toNat - onesCount cfg mem) * symbolPairs cfg .logic0 +
      onesCount cfg mem * symbolPairs cfg .logic1 ≤
        cfg.nbits.toNat * max (symbolPairs cfg .logic0) (symbolPairs cfg .logic1) :=
    calc _ ≤ (cfg.nbits.toNat - onesCount cfg mem) * max (symbolPairs cfg .logic0) (symbolPairs cfg .logic1) +
          onesCount cfg mem * max (symbolPairs cfg .logic0) (symbolPairs cfg .logic1) :=
          Nat.add_le_add (Nat.mul_le_mul_left _ (le_max_left _ _)) (Nat.mul_le_mul_left _ (le_max_right _ _))
      _ = _ := by rw [← Nat.add_mul, Nat.sub_add_cancel hones]
  unfold totalPairs pairBound
  gcongr

/-- Settles O48. -/
theorem outputLength : Obligations.OutputLength :=
  fun cfg mem => ⟨length_runBytes cfg mem, totalPairs_le_pairBound cfg mem⟩

/-- R142: the whole output of a valid configuration can be counted in `OUT_COUNT`. -/
theorem length_runBytes_lt {cfg : ConfigRegs} {depth : BitVec 16} (hv : validate cfg depth = .none)
    (mem : List Host.Cell) : (runBytes cfg mem).length < 2 ^ 64 := by
  have hshort := validate_eq_none_iff.1 hv .tooLong
  rw [causeHolds, Config.outCountLimit, not_le] at hshort
  rw [length_runBytes]
  exact (Nat.mul_le_mul_left 2 (totalPairs_le_pairBound cfg mem)).trans_lt hshort

/-! ### What is still to come, position by position -/

section
variable {cfg : ConfigRegs} (mem : List Host.Cell) {pc : SeqPos}

/-- R113, R78: after the first segment of a symbol its second one comes. -/
theorem laterBytes_of_first_segment (hlegal : LegalPos cfg pc) (hph : pc.ph = .header ∨ pc.ph = .block)
    (hseg : pc.seg = 0) :
    laterBytes cfg mem pc =
      segmentBytes cfg (positionSegment cfg mem (advance cfg pc)) ++ laterBytes cfg mem (advance cfg pc) := by
  rw [advance_of_first_segment cfg hlegal hph hseg,
    positionSegment_of_symbol cfg mem (pc := { pc with seg := 1 }) hph]
  obtain ⟨ph, rep, pos, seg⟩ := pc
  obtain rfl : seg = 0 := hseg
  obtain rfl | rfl : ph = .header ∨ ph = .block := hph
  all_goals
    simp [laterBytes, curSymbol, planIndex]

/-- R113: before a symbol, and after a whole one, the rest of the plan and the trailing silence come. -/
theorem laterBytes_of_leaving (h : pc.ph = .lead ∨ (pc.ph = .header ∨ pc.ph = .block) ∧ pc.seg = 1) :
    laterBytes cfg mem pc =
      ((symbolPlan cfg mem).drop ((visitOrder cfg pc + 1) / 2)).flatMap (symbolBytes cfg) ++
        silBytes (edgePairs cfg) := by
  obtain ⟨ph, rep, pos, seg⟩ := pc
  obtain rfl | ⟨rfl | rfl, rfl⟩ : ph = .lead ∨ (ph = .header ∨ ph = .block) ∧ seg = 1 := h
  · simp [laterBytes, visitOrder]
  · simp [laterBytes, visitOrder, planIndex]
  · have hindex : (visitOrder cfg ⟨.block, rep, pos, 1⟩ + 1) / 2 = planIndex cfg ⟨.block, rep, pos, 1⟩ + 1 := by
      simp only [visitOrder]
      omega
    rw [hindex]
    simp [laterBytes]

/-- R114: at the start of a symbol the rest of the plan begins with that symbol. -/
theorem laterBytes_of_symbol_start (hlegal : LegalPos cfg pc) (hph : pc.ph = .header ∨ pc.ph = .block)
    (hseg : pc.seg = 0) :
    ((symbolPlan cfg mem).drop (visitOrder cfg pc / 2)).flatMap (symbolBytes cfg) ++ silBytes (edgePairs cfg) =
      segmentBytes cfg (positionSegment cfg mem pc) ++ laterBytes cfg mem pc := by
  obtain ⟨hlt, helem⟩ := List.getElem?_eq_some_iff.1 (getElem?_symbolPlan_planIndex mem hlegal hph)
  have hindex : visitOrder cfg pc / 2 = planIndex cfg pc := by
    obtain h | h := hph <;> simp only [visitOrder, h, hseg] <;> bv_omega
  rw [hindex, List.drop_eq_getElem_cons hlt, helem, positionSegment_of_symbol cfg mem hph, hseg]
  obtain h | h := hph <;> simp [laterBytes, h, hseg, symbolBytes]

/-- R114: at the trailing silence nothing of the plan is left. -/
theorem laterBytes_of_trail (ht : pc.ph = .trail) :
    ((symbolPlan cfg mem).drop (visitOrder cfg pc / 2)).flatMap (symbolBytes cfg) ++ silBytes (edgePairs cfg) =
      segmentBytes cfg (positionSegment cfg mem pc) ++ laterBytes cfg mem pc := by
  have hend : visitOrder cfg pc / 2 = planLength cfg := by
    simp only [visitOrder, ht]
    omega
  have hdrop : (symbolPlan cfg mem).drop (planLength cfg) = [] :=
    List.drop_eq_nil_of_le (length_symbolPlan cfg mem).le
  rw [hend, hdrop, List.flatMap_nil, List.nil_append]
  simp [positionSegment, laterBytes, ht, segmentBytes_edgeSegment]

end

/-- R78: what follows the leading silence or a whole symbol is entered at its first segment. -/
theorem advance_of_leaving (cfg : ConfigRegs) {pc : SeqPos}
    (h : pc.ph = .lead ∨ (pc.ph = .header ∨ pc.ph = .block) ∧ pc.seg = 1) :
    (advance cfg pc).ph ≠ .lead ∧ (advance cfg pc).seg = 0 := by
  obtain ⟨ph, rep, pos, seg⟩ := pc
  obtain rfl | ⟨rfl | rfl, rfl⟩ : ph = .lead ∨ (ph = .header ∨ ph = .block) ∧ seg = 1 := h
  · simp [advance]
  · simp [advance]
  · simp only [advance]
    split_ifs <;> simp_all

/-- R113, R78: after the segment of a position come the segment of the next position and what comes after that. -/
theorem laterBytes_advance {cfg : ConfigRegs} (mem : List Host.Cell) {pc : SeqPos} (hlegal : LegalPos cfg pc)
    (hR : cfg.repeatCount ≠ 0) (ht : pc.ph ≠ .trail) :
    laterBytes cfg mem pc =
      segmentBytes cfg (positionSegment cfg mem (advance cfg pc)) ++ laterBytes cfg mem (advance cfg pc) := by
  by_cases hfirst : (pc.ph = .header ∨ pc.ph = .block) ∧ pc.seg = 0
  · exact laterBytes_of_first_segment mem hlegal hfirst.1 hfirst.2
  · have hone : pc.ph = .header ∨ pc.ph = .block → pc.seg = 1 := fun hph => by
      have hzero : pc.seg ≠ 0 := fun h0 => hfirst ⟨hph, h0⟩
      bv_omega
    have hleave : pc.ph = .lead ∨ (pc.ph = .header ∨ pc.ph = .block) ∧ pc.seg = 1 := by
      cases h : pc.ph
      case lead => exact .inl rfl
      case header => exact .inr ⟨.inl rfl, hone (.inl h)⟩
      case block => exact .inr ⟨.inr rfl, hone (.inr h)⟩
      case trail => exact absurd h ht
    obtain ⟨hnext, horder⟩ := advance_next hlegal hR ht
    obtain ⟨hph, hseg⟩ := advance_of_leaving cfg hleave
    rw [laterBytes_of_leaving mem hleave, ← horder]
    cases hq : (advance cfg pc).ph
    case lead => exact absurd hq hph
    case header => exact laterBytes_of_symbol_start mem hnext (.inl hq) hseg
    case block => exact laterBytes_of_symbol_start mem hnext (.inr hq) hseg
    case trail => exact laterBytes_of_trail mem hq

end Sys2Proof.Machine

/-! PROOFS. A run (spec/42_waveform_synth.md R112, R114, spec/43_host_interface.md R134): what one step of the core does
to what is still to come, the end of a run, and the invariant under every step of the machine. -/

namespace Sys2Proof.Machine

/-! ### One step of the core in a run -/

/-- What a run has still to append: the rest of the segment, and what comes after it (R114). -/
def remaining (s : State) : List Byte := segmentRest s ++ laterBytes s.cfg s.bitmem s.pc

/-- `s` at the start of the segment of position `p` (R111). -/
def atPosition (p : SeqPos) (s : State) : State := loadSegment (positionSegment s.cfg s.bitmem p) (s.withPc p)

/-- A pair is taken off what remains (R112). -/
theorem remaining_emitPair {s : State} (hidx : s.seg.idx.toNat < s.seg.n.toNat) :
    remaining s = pairBytes (currentSample s) ++ remaining (emitPair s) := by
  rw [remaining, segmentRest_eq_cons s hidx, List.append_assoc]
  rfl

/-- At the end of a segment only what comes after it remains. -/
theorem remaining_of_end {s : State} (hidx : s.seg.n.toNat ≤ s.seg.idx.toNat) :
    remaining s = laterBytes s.cfg s.bitmem s.pc := by
  rw [remaining, segmentRest_eq_nil s hidx, List.nil_append]

/-- At the start of a position its segment and what comes after it remain. -/
theorem remaining_atPosition (p : SeqPos) (s : State) :
    remaining (atPosition p s) =
      segmentBytes s.cfg (positionSegment s.cfg s.bitmem p) ++ laterBytes s.cfg s.bitmem p := by
  simp [remaining, atPosition, segmentRest]

section
variable {s t : State} (h : Running s)
include h

/-- R49 b: what `OUT` holds and what remains is the whole output. -/
theorem Running.out_append_remaining : s.out ++ remaining s = runBytes s.cfg s.bitmem := by
  rw [remaining, ← List.append_assoc]
  exact h.output

theorem Running.repeatCount_ne_zero : s.cfg.repeatCount ≠ 0 := repeatCount_ne_zero_of_valid h.valid

/-- R78: an advance takes nothing off what remains. -/
theorem Running.remaining_advance (hidx : s.seg.n.toNat ≤ s.seg.idx.toNat) (ht : s.pc.ph ≠ .trail) :
    remaining s = remaining (atPosition (advance s.cfg s.pc) s) := by
  rw [remaining_of_end hidx, remaining_atPosition,
    laterBytes_advance s.bitmem h.legalPos h.repeatCount_ne_zero ht]

/-- R112: emitting a pair keeps a run a run. -/
theorem Running.of_emitPair (hidx : s.seg.idx.toNat < s.seg.n.toNat) : Running (emitPair s) where
  valid := h.valid
  legalPos := h.legalPos
  loaded := h.loaded
  idxLe := (idx_succ hidx).trans_le hidx
  output := by
    rw [List.append_assoc, emitPair_out, List.append_assoc]
    exact (congrArg (s.out ++ ·) (remaining_emitPair hidx)).symm.trans h.out_append_remaining

/-- R112, R78: so does an advance. -/
theorem Running.of_advance (hidx : s.seg.n.toNat ≤ s.seg.idx.toNat) (ht : s.pc.ph ≠ .trail) :
    Running (atPosition (advance s.cfg s.pc) s) where
  valid := h.valid
  legalPos := (advance_next h.legalPos h.repeatCount_ne_zero ht).1
  loaded := rfl
  idxLe := Nat.zero_le _
  output := by
    rw [List.append_assoc]
    exact (congrArg (s.out ++ ·) (h.remaining_advance hidx ht)).symm.trans h.out_append_remaining

/-- R134: at the end of the trailing silence `OUT` is the whole output. -/
theorem Running.out_of_trail_end (hidx : s.seg.n.toNat ≤ s.seg.idx.toNat) (ht : s.pc.ph = .trail) :
    s.out = runBytes s.cfg s.bitmem := by
  have hnil : remaining s = [] := by
    rw [remaining_of_end hidx]
    simp [laterBytes, ht]
  rw [← h.out_append_remaining, hnil, List.append_nil]

/-- A step of the core keeps a run a run, or ends it with the whole output (R112, R134). -/
theorem Running.of_coreStep (hs : coreStep s = .next t) :
    (t.run = .busy ∧ Running t) ∨ (t.run = .done ∧ t.out = runBytes s.cfg s.bitmem) := by
  obtain ⟨hb, ⟨hidx, rfl⟩ | ⟨hidx, ht, rfl⟩ | ⟨hidx, ht, rfl⟩⟩ := coreStep_cases hs
  · exact .inl ⟨hb, h.of_emitPair hidx⟩
  · exact .inr ⟨rfl, h.out_of_trail_end hidx ht⟩
  · exact .inl ⟨hb, h.of_advance hidx ht⟩

/-- `OUT_COUNT` has room for the whole output, so that it counts every pair (R22, R142). -/
theorem Running.count_coreStep (hcount : s.outCount.toNat = s.out.length) (hs : coreStep s = .next t) :
    t.outCount.toNat = t.out.length := by
  obtain ⟨-, ⟨hidx, rfl⟩ | ⟨-, -, rfl⟩ | ⟨-, -, rfl⟩⟩ := coreStep_cases hs
  · have hroom := length_runBytes_lt h.valid s.bitmem
    rw [← h.out_append_remaining, remaining_emitPair hidx, List.length_append, List.length_append,
      length_pairBytes] at hroom
    rw [emitPair_out, List.length_append, length_pairBytes, emitPair_outCount]
    bv_omega
  · exact hcount
  · exact hcount

end

/-- R32 b, c: every pair is one of equal bytes of a legal sample. -/
theorem LegalStream.of_coreStep {s t : State} (h : LegalStream s.out) (hs : coreStep s = .next t) :
    LegalStream t.out := by
  obtain ⟨-, ⟨-, rfl⟩ | ⟨-, -, rfl⟩ | ⟨-, -, rfl⟩⟩ := coreStep_cases hs
  · obtain ⟨hlo, hhi⟩ := segmentSample_legal s.cfg s.seg.kind s.seg.idx.toNat
    rw [emitPair_out, currentSample_eq]
    exact h.append_pair hlo hhi
  · exact h
  · exact h

/-! ### Runs of core steps -/

theorem coreSteps_succ_eq_next_iff {k : Nat} {s u : State} :
    coreSteps (k + 1) s = .next u ↔ ∃ t, coreStep s = .next t ∧ coreSteps k t = .next u := by
  rw [coreSteps]
  cases coreStep s <;> simp [andThen]

/-- Core steps keep a run a run, or have ended it with the whole output. -/
theorem Running.of_coreSteps {k : Nat} {s u : State} (h : Running s) (hb : s.run = .busy)
    (hs : coreSteps k s = .next u) :
    (u.run = .busy ∧ Running u) ∨ (u.run = .done ∧ u.out = runBytes s.cfg s.bitmem) := by
  induction k generalizing s with
  | zero =>
    obtain rfl := nextEq_iff.1 hs
    exact .inl ⟨hb, h⟩
  | succ k ih =>
    obtain ⟨t, hstep, hrest⟩ := coreSteps_succ_eq_next_iff.1 hs
    have hframe := coreStep_frame hstep
    rcases h.of_coreStep hstep with ⟨htb, ht⟩ | hdone
    · rw [← hframe.cfg, ← hframe.bitmem]
      exact ih ht htb hrest
    · cases k with
      | zero =>
        obtain rfl := nextEq_iff.1 hrest
        exact .inr hdone
      | succ k =>
        obtain ⟨_, hstep', -⟩ := coreSteps_succ_eq_next_iff.1 hrest
        simp [(coreStep_cases hstep').1] at hdone

/-- What core steps write of the state. -/
theorem coreSteps_frame {k : Nat} {s u : State} (hs : coreSteps k s = .next u) : CoreFrame s u := by
  induction k generalizing s with
  | zero => exact nextEq_iff.1 hs ▸ .refl s
  | succ k ih =>
    obtain ⟨t, hstep, hrest⟩ := coreSteps_succ_eq_next_iff.1 hs
    exact (coreStep_frame hstep).trans (ih hrest)

/-! ### How long a run goes on -/

/-- The core steps of a run that are left: one for each pair, one for each advance, and the end. -/
def stepsLeft (s : State) : Nat :=
  (remaining s).length / 2 + (1 + 2 * planLength s.cfg - visitOrder s.cfg s.pc) + 1

/-- Each step takes one off the steps left; the last one ends the run. -/
theorem Running.stepsLeft_of_coreStep {s t : State} (h : Running s) (hs : coreStep s = .next t) :
    (t.run = .busy ∧ stepsLeft s = stepsLeft t + 1) ∨ (t.run = .done ∧ stepsLeft s = 1) := by
  obtain ⟨hb, ⟨hidx, rfl⟩ | ⟨hidx, ht, rfl⟩ | ⟨hidx, ht, rfl⟩⟩ := coreStep_cases hs
  · left
    have hlen : (remaining s).length = 2 + (remaining (emitPair s)).length := by
      rw [remaining_emitPair hidx, List.length_append, length_pairBytes]
    refine ⟨hb, ?_⟩
    simp only [stepsLeft, hlen, emitPair_cfg, emitPair_pc]
    omega
  · right
    have horder : visitOrder s.cfg s.pc = 1 + 2 * planLength s.cfg := by simp only [visitOrder, ht]
    have hnil : remaining s = [] := by
      rw [remaining_of_end hidx]
      simp only [laterBytes, ht]
    exact ⟨rfl, by simp [stepsLeft, horder, hnil]⟩
  · left
    obtain ⟨hlegal, horder⟩ := advance_next h.legalPos h.repeatCount_ne_zero ht
    have hbound := visitOrder_le hlegal
    refine ⟨hb, ?_⟩
    simp only [stepsLeft, h.remaining_advance hidx ht, atPosition, loadSegment_cfg, loadSegment_pc, withPc_cfg,
      withPc_pc]
    omega

/-- R112, R134: as many core steps end the run, and `OUT_COUNT` has then counted every byte. -/
theorem Running.coreSteps_stepsLeft {s : State} (h : Running s) (hb : s.run = .busy)
    (hcount : s.outCount.toNat = s.out.length) :
    ∃ u, coreSteps (stepsLeft s) s = .next u ∧ u.run = .done ∧ u.outCount.toNat = u.out.length := by
  generalize hk : stepsLeft s = k
  induction k generalizing s with
  | zero => exact absurd hk (Nat.succ_ne_zero _)
  | succ k ih =>
    obtain ⟨t, hstep⟩ := exists_coreStep hb
    have hcount' := h.count_coreStep hcount hstep
    simp only [coreSteps_succ_eq_next_iff]
    rcases h.stepsLeft_of_coreStep hstep with ⟨htb, hleft⟩ | ⟨hdone, hleft⟩
    · obtain ⟨-, ht⟩ := (h.of_coreStep hstep).resolve_right (by simp [htb])
      obtain ⟨u, hrest, hu⟩ := ih ht htb hcount' (by omega)
      exact ⟨u, ⟨t, hstep, hrest⟩, hu⟩
    · obtain rfl : k = 0 := by omega
      exact ⟨t, ⟨t, hstep, rfl⟩, hdone, hcount'⟩

/-- The runs of the machine, from the first step. -/
theorem core_run_succ {k : Nat} {s t : core.State} (h : core.step s = .next t) : core.run (k + 1) s = core.run k t := by
  rw [Host.Core.run, h]

/-- R112: with a silent host the core's steps are the machine's (log 3). -/
theorem core_run_of_coreSteps {k : Nat} {s u : State} (ha : s.agenda = []) (hs : coreSteps k s = .next u) :
    core.run k s = .next u := by
  induction k generalizing s with
  | zero => exact hs
  | succ k ih =>
    obtain ⟨t, hstep, hrest⟩ := coreSteps_succ_eq_next_iff.1 hs
    have hmachine : core.step s = .next t := (step_of_silent_busy ha (coreStep_cases hstep).1).trans hstep
    rw [core_run_succ hmachine]
    exact ih ((coreStep_frame hstep).agenda.trans ha) hrest

/-- An accepted `START` begins a run (R129). -/
theorem running_beginRun {s : State} (hv : validate s.cfg s.bitmemDepth = .none) :
    Running (beginRun (clearOut s)) where
  valid := hv
  legalPos := ⟨rfl, rfl, rfl⟩
  loaded := beginRun_loaded (clearOut s)
  idxLe := Nat.zero_le _
  output := by
    rw [List.append_assoc, beginRun_rest, beginRun_out, clearOut_out, List.nil_append]
    rfl

/-- R112, R116: how long a run takes from its `START`. -/
theorem stepsLeft_beginRun (s : State) :
    stepsLeft (beginRun (clearOut s)) = totalPairs s.cfg s.bitmem + 2 * planLength s.cfg + 2 := by
  have hall : remaining (beginRun (clearOut s)) = runBytes s.cfg s.bitmem := beginRun_rest (clearOut s)
  have horder : visitOrder (beginRun (clearOut s)).cfg (beginRun (clearOut s)).pc = 0 := rfl
  rw [stepsLeft, hall, horder, length_runBytes, beginRun_cfg, clearOut_cfg]
  omega

/-- Settles O45: the steps left at `START` end the run. -/
theorem runProducesTheWholeOutput : Obligations.RunProducesTheWholeOutput := by
  intro s hg hv k
  have hrun := running_beginRun hv
  obtain ⟨u, hsteps, hdone, hcount⟩ := hrun.coreSteps_stepsLeft rfl rfl
  obtain ⟨-, hout⟩ := (hrun.of_coreSteps rfl hsteps).resolve_left (by simp [hdone])
  have hframe := coreSteps_frame hsteps
  rw [stepsLeft_beginRun] at hsteps
  exact ⟨_, u, exec_start_of_valid hg hv, hsteps, hdone, hout, hcount, hframe.cfg, hframe.bitmem,
    fun ha => core_run_of_coreSteps ha hsteps⟩

/-- Settles O47: the steps left are at most those of a whole run. -/
theorem everyRunEnds : Obligations.EveryRunEnds := by
  intro s hinv hb ha
  have hrun := hinv.running hb
  obtain ⟨u, hsteps, hdone, -⟩ := hrun.coreSteps_stepsLeft hb hinv.count
  refine ⟨_, u, ?_, core_run_of_coreSteps ha hsteps, hdone⟩
  have hlen := length_runBytes s.cfg s.bitmem
  rw [← hrun.out_append_remaining, List.length_append] at hlen
  unfold stepsLeft
  omega

/-- R127: with the gate closed the host can but get an answer, or reset. -/
theorem hostStep_of_gateClosed {op : HostOp} {s t : State} (hg : gateOpen s.run = false)
    (hs : hostStep op s = .next t) : (∃ r, t = s.withReply r) ∨ t = resetState s := by
  obtain hsame | hr | hr | ⟨hopen, -⟩ | ⟨hopen, -⟩ | ⟨hopen, -⟩ | ⟨hopen, -⟩ := hostStep_cases hs
  · exact .inl ⟨s.reply, hsame⟩
  · exact .inl hr
  · exact .inr hr
  all_goals exact absurd (hopen.symm.trans hg) (by decide)

/-! ### The invariant -/

/-- Settles O43: at reset `BITMEM` and `OUT` are empty, and `RUN` is `IDLE`. -/
theorem resetSatisfiesInvariant : Obligations.ResetSatisfiesInvariant where
  memWf := rfl
  memInside := by simp [State.reset]
  count := rfl
  stream := legalStream_nil
  emptyOut := fun _ => rfl
  cause := by simp [State.reset]
  running := by simp [State.reset]

section
variable {s t : State} (h : Inv s)
include h

/-- The invariant does not speak of the host's side: the agenda and the answer (log 3, 5). -/
theorem Inv.withHostSide (a : List Turn) (r : Reply) : Inv ((s.withAgenda a).withReply r) where
  memWf := h.memWf
  memInside := h.memInside
  count := h.count
  stream := h.stream
  emptyOut := h.emptyOut
  cause := h.cause
  running := fun hb =>
    let hr := h.running hb
    ⟨hr.valid, hr.legalPos, hr.loaded, hr.idxLe, hr.output⟩

theorem Inv.atTurn : Inv (atTurn s) := h.withHostSide s.agenda.tail s.reply

theorem Inv.withReply (r : Reply) : Inv (s.withReply r) := h.withHostSide s.agenda r

/-- A step of the core keeps it (R112). -/
theorem Inv.of_coreStep (hs : coreStep s = .next t) : Inv t := by
  have hb := (coreStep_cases hs).1
  have hrun := h.running hb
  have hframe := coreStep_frame hs
  have hlive : t.run ≠ .idle ∧ t.run ≠ .fault := by
    rcases hframe.run with e | e <;> simp [e, hb]
  exact {
    memWf := hframe.bitmem ▸ h.memWf
    memInside := by rw [hframe.bitmem, hframe.bitmemDepth]; exact h.memInside
    count := hrun.count_coreStep h.count hs
    stream := h.stream.of_coreStep hs
    emptyOut := fun hstop => absurd hstop (by simp [hlive])
    cause := by rw [hframe.cause, h.cause]; simp [hb, hlive]
    running := fun htb => ((hrun.of_coreStep hs).resolve_right (by simp [htb])).2 }

/-- So does any number of them. -/
theorem Inv.of_coreSteps {k : Nat} (hs : coreSteps k s = .next t) : Inv t := by
  induction k generalizing s with
  | zero => exact nextEq_iff.1 hs ▸ h
  | succ k ih =>
    obtain ⟨u, hstep, hrest⟩ := coreSteps_succ_eq_next_iff.1 hs
    exact ih (h.of_coreStep hstep) hrest

/-- In a run a fused turn is a number of core steps (D20). -/
theorem Inv.coreSteps_of_coreInstr (hs : coreInstr s = .next t) : ∃ k, coreSteps k s = .next t := by
  have hb := (coreInstr_cases hs).1
  have hrun := h.running hb
  obtain ⟨k, -, hk⟩ := fusedTurnIsSomeCoreSteps s hb hrun.legalPos hrun.loaded hrun.idxLe
  exact ⟨k, hk ▸ hs⟩

/-- A reset keeps `BITMEM` and its depth, and empties the rest (R131). -/
theorem Inv.resetState : Inv (resetState s) where
  memWf := h.memWf
  memInside := h.memInside
  count := rfl
  stream := legalStream_nil
  emptyOut := fun _ => rfl
  cause := by simp
  running := by simp

/-- Out of `BUSY` the inputs of a run may be written, `BITMEM` in canonical form below its depth (R125, R128). -/
theorem Inv.withInputs (hb : s.run ≠ .busy) (cfg : ConfigRegs) {mem : List Host.Cell} (hwf : Memory.wf mem = true)
    (hinside : ∀ c ∈ mem, c.1 < s.bitmemDepth.toNat) : Inv ((s.withCfg cfg).withBitmem mem) where
  memWf := hwf
  memInside := hinside
  count := h.count
  stream := h.stream
  emptyOut := h.emptyOut
  cause := h.cause
  running := fun hbusy => absurd hbusy hb

theorem Inv.withCfg (hb : s.run ≠ .busy) (cfg : ConfigRegs) : Inv (s.withCfg cfg) :=
  h.withInputs hb cfg h.memWf h.memInside

/-- A character written below the depth (R128). -/
theorem Inv.withBitmem (hb : s.run ≠ .busy) {k : Nat} (ch : Byte) (hk : k < s.bitmemDepth.toNat) :
    Inv (s.withBitmem (memWrite k ch s.bitmem)) := by
  refine h.withInputs hb s.cfg (memWrite_wf k ch h.memWf) fun c hc => ?_
  rcases mem_memWrite hc with rfl | hc
  · exact hk
  · exact h.memInside c hc

/-- An accepted `START` begins a run, no cause being recorded out of `FAULT` (R129). -/
theorem Inv.beginRun (hf : s.run ≠ .fault) (hv : validate s.cfg s.bitmemDepth = .none) :
    Inv (beginRun (clearOut s)) where
  memWf := h.memWf
  memInside := h.memInside
  count := rfl
  stream := legalStream_nil
  emptyOut := fun _ => rfl
  cause := by
    have hnone : ¬ s.cause ≠ .none := fun hc => hf (h.cause.1 hc)
    simpa using hnone
  running := fun _ => running_beginRun hv

/-- A refused one records its cause (R145). -/
theorem Inv.raiseDomainError {c : Cause} (hc : c ≠ .none) : Inv (raiseDomainError c (clearOut s)) where
  memWf := h.memWf
  memInside := h.memInside
  count := rfl
  stream := legalStream_nil
  emptyOut := fun _ => rfl
  cause := by simp [hc]
  running := by simp

/-- Every operation of the host keeps it (R125 to R132). -/
theorem Inv.of_hostStep {op : HostOp} (hs : hostStep op s = .next t) : Inv t := by
  have hnotBusy : gateOpen s.run = true → s.run ≠ .busy := by rintro hg hb; simp [hb, gateOpen] at hg
  have hnotFault : gateOpen s.run = true → s.run ≠ .fault := by rintro hg hf; simp [hf, gateOpen] at hg
  obtain rfl | ⟨r, rfl⟩ | rfl | ⟨hg, cfg, rfl⟩ | ⟨hg, k, ch, hk, rfl⟩ | ⟨hg, hv, rfl⟩ | ⟨hg, c, hc, -, rfl⟩ :=
    hostStep_cases hs
  · exact h
  · exact h.withReply r
  · exact h.resetState
  · exact h.withCfg (hnotBusy hg) cfg
  · exact h.withBitmem (hnotBusy hg) ch hk
  · exact h.beginRun (hnotFault hg) hv
  · exact h.raiseDomainError hc

end

/-- Settles O44: the core by its steps, which a fused turn is a number of, the host by its operations, and the reset. -/
theorem stepKeepsInvariant : Obligations.StepKeepsInvariant := by
  intro s t hinv hs
  have hturn := hinv.atTurn
  obtain ⟨-, -, rfl⟩ | hcore | hfused | ⟨op, hop⟩ | rfl := step_cases hs
  · exact hinv
  · exact hturn.of_coreStep hcore
  · obtain ⟨k, hk⟩ := hturn.coreSteps_of_coreInstr hfused
    exact hturn.of_coreSteps hk
  · exact hturn.of_hostStep hop
  · exact hturn.resetState

/-- Settles O46: `OUT` and what remains make the whole output, and only the core's last step writes `DONE`. -/
theorem doneMeansComplete : Obligations.DoneMeansComplete := by
  intro s t hinv hb hs
  refine ⟨⟨_, (hinv.running hb).out_append_remaining⟩, fun hdone => ?_⟩
  have hturn := hinv.atTurn
  have hrun := hturn.running hb
  obtain ⟨-, hwait, -⟩ | hcore | hfused | ⟨op, hop⟩ | rfl := step_cases hs
  · exact absurd hb hwait
  · exact ((hrun.of_coreStep hcore).resolve_left (by simp [hdone])).2
  · obtain ⟨k, hk⟩ := hturn.coreSteps_of_coreInstr hfused
    exact ((hrun.of_coreSteps hb hk).resolve_left (by simp [hdone])).2
  · obtain ⟨r, rfl⟩ | rfl := hostStep_of_gateClosed (s := atTurn s) (gateOpen_eq_false_iff.2 (.inl hb)) hop
    · exact absurd (hb.symm.trans hdone) (by decide)
    · simp at hdone
  · simp at hdone

end Sys2Proof.Machine

/-! PROOFS. The instructions (spec/40_symbol_planner.md R70 to R72, 41_timing_resolver.md R88, R91 to R95,
42_waveform_synth.md R103 to R107, R115): what each appends, the carrier's period and zeros, and the frames. -/

namespace Sys2Proof.Machine

/-! ### The `CHAR` and `SYM` instructions -/

/-- Settles O13: planning a symbol is the load of its segment for `SEG`. -/
theorem charInstructionsPlanTheirSymbol : Obligations.CharInstructionsPlanTheirSymbol :=
  fun _ _ => ⟨rfl, rfl, rfl⟩

/-- R91 to R95: a whole symbol, its two counts together being its pairs. -/
theorem executeSymbol_eq_afterSymbol (c : SymbolKind) (s : State) : executeSymbol c s = afterSymbol c s := by
  rw [executeSymbol_eq, segmentOf_pairs]
  rfl

/-- R91 to R94: the symbol each instruction executes. -/
theorem exec_symbol (s : State) :
    exec .l0 s = .next (executeSymbol .logic0 s) ∧ exec .l1 s = .next (executeSymbol .logic1 s) ∧
      exec .hdr s = .next (executeSymbol .header s) ∧ exec .gap s = .next (executeSymbol .gap s) :=
  ⟨rfl, rfl, rfl, rfl⟩

/-- Settles O14. -/
theorem symbolInstructionsAppendBothSegments : Obligations.SymbolInstructionsAppendBothSegments := by
  intro s
  simp only [← executeSymbol_eq_afterSymbol]
  exact exec_symbol s

/-- Settles O28. -/
theorem sampleCountFitsSegN : Obligations.SampleCountFitsSegN :=
  fun cfg us => ⟨(nsamp_eq_zero_iff _ 0).2 (by simp), countOf_toNat cfg us⟩

/-- R94: the Gap's waveform is empty, its high duration being 0, so in either order its bytes are its silence. -/
theorem symbolBytes_gap (cfg : ConfigRegs) :
    symbolBytes cfg .gap = silBytes (nsamp cfg.sampleRate.toNat cfg.gap.lowUs.toNat) := by
  have hwav : segmentBytes cfg ⟨.wav, countOf cfg (profileOf cfg .gap).highUs.toNat⟩ = [] := by
    rw [← List.length_eq_zero_iff, length_segmentBytes, countOf_toNat]
    simp [profileOf, nsamp]
  have hsil : segmentBytes cfg ⟨.sil, countOf cfg (profileOf cfg .gap).lowUs.toNat⟩ =
      silBytes (nsamp cfg.sampleRate.toNat cfg.gap.lowUs.toNat) :=
    congrArg silBytes (countOf_toNat cfg _)
  obtain hone | hzero : (profileOf cfg .gap).highFirst = 1 ∨ (profileOf cfg .gap).highFirst = 0 := by bv_omega
  · obtain ⟨h0, h1⟩ := segmentOf_of_highFirst_eq_one hone
    rw [symbolBytes, h0, h1, hwav, hsil, List.nil_append]
  · obtain ⟨h0, h1⟩ := segmentOf_of_highFirst_eq_zero hzero
    rw [symbolBytes, h0, h1, hwav, hsil, List.append_nil]

/-- Settles O15. -/
theorem gapIsSilence : Obligations.GapIsSilence := by
  intro s
  obtain ⟨-, -, -, hexec⟩ := symbolInstructionsAppendBothSegments s
  exact ⟨_, hexec, congrArg (s.out ++ ·) (symbolBytes_gap s.cfg)⟩

/-! ### `WAV` -/

/-- R103, R111: `WAV n` executes a segment of the carrier. -/
theorem exec_wav (n : Count) (s : State) : exec (.wav n) s = .next (executeSegment ⟨.wav, n⟩ s) := rfl

/-- R103, R114: what it appends. -/
theorem out_executeSegment_wav (n : Count) (s : State) :
    (executeSegment ⟨.wav, n⟩ s).out = s.out ++ wavBytes s.cfg n.toNat := by
  rw [executeSegment_eq]
  rfl

/-- Settles O18: the descriptor has `KIND` 1, and a whole segment of the carrier is its `n` pairs. -/
theorem wavAppendsCarrierPairs : Obligations.WavAppendsCarrierPairs := by
  intro s n
  rw [decode_seg, decodeSeg_append, exec_wav, executeSegment_eq]
  exact ⟨rfl, _, rfl, rfl⟩

/-- R115: every waveform restarts at local index 0, so a shorter one is a beginning of a longer one. -/
theorem wavBytes_prefix (cfg : ConfigRegs) {n m : Nat} (h : n ≤ m) : wavBytes cfg n <+: wavBytes cfg m := by
  obtain ⟨d, rfl⟩ := Nat.exists_eq_add_of_le h
  rw [wavBytes, wavBytes, List.range_add, List.flatMap_append]
  exact List.prefix_append _ _

/-- Settles O19. -/
theorem waveformsArePrefixesOfOneSequence : Obligations.WaveformsArePrefixesOfOneSequence := by
  intro s t n m hcfg hle
  obtain ⟨rest, hrest⟩ := wavBytes_prefix s.cfg hle
  refine ⟨_, _, _, rest, exec_wav n s, exec_wav m t, out_executeSegment_wav n s, ?_⟩
  rw [out_executeSegment_wav, ← hcfg, ← hrest, List.append_assoc]

/-- R106, R108: where the carrier is stated, the sample of local index 0 is 0. -/
theorem waveSample_zero {cfg : ConfigRegs} (hfs : cfg.sampleRate ≠ 0) (hfd : cfg.dataFreq ≠ 0)
    (hphases : cfg.numPhases ≠ 0) : waveSample cfg 0 = 0 := by
  rw [waveSample, carrier_index_zero _ (BitVec.toNat_pos_of_ne_zero hfs) (BitVec.toNat_pos_of_ne_zero hfd)
    (BitVec.toNat_pos_of_ne_zero hphases)]
  decide

/-- Settles O20: the first pair is that of local index 0. -/
theorem waveformsBeginAtZero : Obligations.WaveformsBeginAtZero := by
  intro s n hfs hfd hphases hn
  have hpair : wavBytes s.cfg 1 = [0, 0] := by
    simp [wavBytes, waveSample_zero hfs hfd hphases, pairBytes, enc8]
  obtain ⟨rest, hrest⟩ := wavBytes_prefix s.cfg (BitVec.toNat_pos_of_ne_zero hn)
  refine ⟨_, rest, exec_wav n s, ?_⟩
  rw [out_executeSegment_wav, ← hrest, Nat.succ_eq_add_one, Nat.zero_add, hpair]
  rfl

/-! ### The carrier's period and zeros -/

open Real

/-- R104: in `fs / gcd(fs, fd)` samples the data carrier makes whole turns. -/
theorem exists_turns_of_dvd {fs fd T : Nat} (hfs : 0 < fs) (hT : fs / Nat.gcd fs fd ∣ T) :
    ∃ turns : Nat, (T : ℝ) * fd / fs = turns := by
  obtain ⟨m, rfl⟩ := hT
  have hgfs : fs / Nat.gcd fs fd * Nat.gcd fs fd = fs := Nat.div_mul_cancel (Nat.gcd_dvd_left fs fd)
  have hgfd : fd / Nat.gcd fs fd * Nat.gcd fs fd = fd := Nat.div_mul_cancel (Nat.gcd_dvd_right fs fd)
  have hwhole : fs / Nat.gcd fs fd * m * fd = m * (fd / Nat.gcd fs fd) * fs := by
    generalize fs / Nat.gcd fs fd = a at *
    generalize fd / Nat.gcd fs fd = b at *
    generalize Nat.gcd fs fd = g at *
    subst hgfs hgfd
    ring
  refine ⟨m * (fd / Nat.gcd fs fd), ?_⟩
  rw [div_eq_iff (by positivity)]
  exact_mod_cast hwhole

/-- Settles O22: after a period both parts of the phase have made whole turns. -/
theorem carrierIsPeriodic : Obligations.CarrierIsPeriodic := by
  intro fs fd phases amp i hfs hfd hphases
  obtain ⟨turns, hturns⟩ := exists_turns_of_dvd hfs (Nat.dvd_lcm_left (fs / Nat.gcd fs fd) phases)
  have hmod : (i + Nat.lcm (fs / Nat.gcd fs fd) phases) % phases = i % phases := by
    obtain ⟨m, hm⟩ := Nat.dvd_lcm_right (fs / Nat.gcd fs fd) phases
    rw [hm, Nat.add_mul_mod_self_left]
  rw [carrier_eq_round amp _ hfs hfd hphases, carrier_eq_round amp i hfs hfd hphases, hmod]
  generalize Nat.lcm (fs / Nat.gcd fs fd) phases = T at hturns
  have hphase : 2 * π * (((i + T : Nat) : ℝ) * fd / fs + ((i % phases : Nat) : ℝ) / phases) =
      2 * π * ((i : ℝ) * fd / fs + ((i % phases : Nat) : ℝ) / phases) + turns * (2 * π) := by
    rw [← hturns]
    push_cast
    ring
  rw [hphase, sin_add_nat_mul_two_pi]

/-- Settles O23: the sine of a whole number of half turns is 0. -/
theorem carrierIsZeroAtHalfTurns : Obligations.CarrierIsZeroAtHalfTurns := by
  intro fs fd phases amp i hfs hfd hphases ⟨m, hm⟩
  have hden : ((fs * phases : Nat) : ℝ) ≠ 0 := by positivity
  have hphase : 2 * π * ((thetaNum fs fd phases i : ℝ) / (fs * phases : Nat)) = m * π := by
    have hm' : 2 * (thetaNum fs fd phases i : ℝ) = (fs * phases : Nat) * m := mod_cast hm
    rw [← mul_div_assoc, div_eq_iff hden]
    linear_combination π * hm'
  rw [carrier_eq_round amp i hfs hfd hphases, ← thetaNum_div fd i hfs hphases, hphase, sin_nat_mul_pi, zero_mul,
    round_zero]

/-! ### Frames -/

/-- R129, R130, R131: what a command answers. -/
theorem exec_ctrl_cases {i : Instr} {s t : State} (hf : i.format = .ctrl) (h : exec i s = .next t) :
    (i = .nop ∧ t = s) ∨ (i = .start ∧ execStart s = .next t) ∨ ((∃ b, i = .reset b) ∧ t = resetState s) := by
  cases i
  case nop => exact .inl ⟨rfl, (nextEq_iff.1 h).symm⟩
  case start => exact .inr (.inl ⟨rfl, h⟩)
  case reset b => exact .inr (.inr ⟨⟨b, rfl⟩, (nextEq_iff.1 h).symm⟩)
  all_goals cases hf

section
variable {i : Instr} {s t : State} (h : exec i s = .next t)
include h

/-- R70 to R72: a `CHAR` instruction plans a symbol. -/
theorem exec_char_cases (hf : i.format = .char) : ∃ c, t = planSymbol c s := by
  cases i
  case bit1 | bit0 | bitx ch => exact ⟨_, (nextEq_iff.1 h).symm⟩
  all_goals cases hf

/-- R91 to R94: a `SYM` instruction executes a symbol. -/
theorem exec_sym_cases (hf : i.format = .sym) : ∃ c, t = executeSymbol c s := by
  cases i
  case l0 | l1 | hdr | gap => exact ⟨_, (nextEq_iff.1 h).symm⟩
  all_goals cases hf

/-- R102, R103: a `SEG` instruction executes a segment. -/
theorem exec_seg_cases (hf : i.format = .seg) : ∃ g, t = executeSegment g s := by
  cases i
  case sil n | wav n => exact ⟨_, (nextEq_iff.1 h).symm⟩
  all_goals cases hf

/-- An instruction of the core writes no more than a step of the core, and leaves `RUN`. -/
theorem exec_coreFrame (hf : i.format ≠ .ctrl) : CoreFrame s t ∧ t.run = s.run := by
  cases hformat : i.format
  case char =>
    obtain ⟨c, rfl⟩ := exec_char_cases h hformat
    exact ⟨loadSegment_frame _ s, rfl⟩
  case sym =>
    obtain ⟨c, rfl⟩ := exec_sym_cases h hformat
    exact ⟨executeSymbol_frame c s, by rw [executeSymbol_eq]⟩
  case seg =>
    obtain ⟨g, rfl⟩ := exec_seg_cases h hformat
    exact ⟨executeSegment_frame g s, by rw [executeSegment_eq]⟩
  case ctrl => exact absurd hformat hf

/-- R41: no instruction writes `BITMEM`, nor the depth, the agenda and the answer (log 1, 3, 5, 15). -/
theorem exec_keeps_memory :
    t.bitmem = s.bitmem ∧ t.bitmemDepth = s.bitmemDepth ∧ t.agenda = s.agenda ∧ t.reply = s.reply := by
  by_cases hf : i.format = .ctrl
  case neg =>
    obtain ⟨hframe, -⟩ := exec_coreFrame h hf
    exact ⟨hframe.bitmem, hframe.bitmemDepth, hframe.agenda, hframe.reply⟩
  obtain ⟨-, rfl⟩ | ⟨-, hstart⟩ | ⟨-, rfl⟩ := exec_ctrl_cases hf h
  · exact ⟨rfl, rfl, rfl, rfl⟩
  · obtain ⟨-, e⟩ | ⟨-, -, e⟩ | ⟨-, c, -, -, e⟩ := execStart_cases s
    all_goals
      obtain rfl := nextEq_iff.1 (e.symm.trans hstart)
      exact ⟨rfl, rfl, rfl, rfl⟩
  · exact ⟨rfl, rfl, rfl, rfl⟩

end

/-- R129, R145: `START` leaves the configuration. -/
theorem execStart_cfg {s t : State} (h : execStart s = .next t) : t.cfg = s.cfg := by
  obtain ⟨-, e⟩ | ⟨-, -, e⟩ | ⟨-, c, -, -, e⟩ := execStart_cases s
  all_goals
    obtain rfl := nextEq_iff.1 (e.symm.trans h)
    rfl

/-- Settles O33, format by format. -/
theorem instructionFrames : Obligations.InstructionFrames := by
  intro s t i h
  obtain ⟨hbitmem, hdepth, hagenda, hreply⟩ := exec_keeps_memory h
  refine ⟨fun k => by rw [hbitmem], hdepth, hagenda, hreply, fun hf => ?core, fun hf => ?char, fun hf => ?seg,
    fun hf => ?sym, ?nop, ?start⟩
  case core =>
    obtain ⟨hframe, hrun⟩ := exec_coreFrame h hf
    obtain ⟨more, hmore, -⟩ := hframe.out
    exact ⟨hframe.cfg, hrun, hframe.cause, more, hmore.symm⟩
  case char =>
    obtain ⟨c, rfl⟩ := exec_char_cases h hf
    exact ⟨rfl, rfl, rfl⟩
  case seg =>
    obtain ⟨g, rfl⟩ := exec_seg_cases h hf
    rw [executeSegment_eq]
  case sym =>
    obtain ⟨c, rfl⟩ := exec_sym_cases h hf
    rw [executeSymbol_eq]
  case nop =>
    rintro rfl
    exact (nextEq_iff.1 h).symm
  case start =>
    rintro rfl
    exact execStart_cfg h

end Sys2Proof.Machine

/-! PROOFS. The register reads, the closed gate, and what one step of the machine does (spec/10_state.md R21, R33,
43_host_interface.md R125 to R135, 60_exceptions.md R140 to R146): who writes what, and the run-state machine. -/

namespace Sys2Proof.Machine

/-! ### Register reads -/

/-- R33, R126: the number of a register reads it. -/
theorem regRead_regNumber (s : State) (r : Reg) : regRead s (regNumber r) = regValue s r :=
  regRead_of_regAt (regAt_eq_some_iff.2 rfl) s

/-- R33: no register has a number from 0x20 up. -/
theorem regAt_of_high {num : RegNumber} (h : 0x20 ≤ num.toNat) : regAt num = none := by
  revert num
  decide

/-- Settles O7: the number of each register, and the unused numbers. -/
theorem hardwiredRegistersRead : Obligations.HardwiredRegistersRead := by
  intro s
  have reads := regRead_regNumber s
  have unused : ∀ num ∈ [0x0A#6, 0x0B#6, 0x0C#6, 0x0D#6, 0x0E#6, 0x0F#6, 0x13#6, 0x17#6, 0x1B#6, 0x1F#6],
      regAt num = none := by decide
  exact ⟨⟨reads .edgeUs, reads (.highUs .gap), reads .ctrl⟩,
    ⟨reads .sampleRate, reads .dataFreq, reads .numPhases, reads .repeatCount, reads .amplitude, reads .nbits⟩,
    ⟨reads (.highUs .logic0), reads (.lowUs .logic0), reads (.highFirst .logic0)⟩,
    ⟨reads (.highUs .logic1), reads (.lowUs .logic1), reads (.highFirst .logic1)⟩,
    ⟨reads (.highUs .header), reads (.lowUs .header), reads (.highFirst .header)⟩,
    ⟨reads (.lowUs .gap), reads (.highFirst .gap)⟩,
    fun num hnum => regRead_of_unused (unused num hnum) s,
    fun _ hnum => regRead_of_unused (regAt_of_high hnum) s,
    fun _ hnum => regRead_of_unused hnum s⟩

/-- R21: the layout of `STATUS`. -/
theorem statusByte_toNat (run : RunState) (cause : Cause) :
    (statusByte run cause).toNat = (runCode run).toNat + 4 * (causeCode cause).toNat := by
  have hlayout : ∀ (c : BitVec 3) (r : BitVec 2), (0#3 ++ c ++ r).toNat = r.toNat + 4 * c.toNat := by decide
  exact hlayout _ _

/-- Settles O12. -/
theorem statusReadsRunAndCause : Obligations.StatusReadsRunAndCause := by
  refine ⟨⟨rfl, rfl, rfl, rfl⟩, ⟨rfl, rfl, rfl, rfl, rfl, rfl, rfl⟩, fun s => ⟨?_, regRead_regNumber s .outCount⟩⟩
  have hread : regRead s 0x01 = (statusByte s.run s.cause).setWidth 64 := regRead_status s
  rw [hread, BitVec.toNat_setWidth_of_le (by decide), statusByte_toNat]

/-! ### `OutRead` and the closed gate -/

/-- R132: below `OUT_COUNT` the answer is the byte. -/
theorem hostStep_outRead_of_lt {s : State} {j : Nat} (hcount : s.outCount.toNat = s.out.length)
    (hj : j < s.out.length) : hostStep (.outRead j) s = .next (s.withReply (.byte s.out[j])) := by
  have hbyte : outByte s j = some s.out[j] := by
    rw [outByte, if_pos (hcount ▸ hj), List.getElem?_eq_getElem hj]
  rw [hostStep, hostOutRead, hbyte]

/-- R132: at or past it the read is refused. -/
theorem hostStep_outRead_of_le {s : State} {j : Nat} (hj : s.outCount.toNat ≤ j) :
    hostStep (.outRead j) s = .next (s.withReply .refused) := by
  have hnone : outByte s j = none := if_neg hj.not_gt
  rw [hostStep, hostOutRead, hnone]

/-- Settles O10. -/
theorem readsHaveNoSideEffect : Obligations.ReadsHaveNoSideEffect :=
  fun _ hcount => ⟨fun _ => rfl, fun _ hj => hostStep_outRead_of_lt hcount hj,
    fun _ hj => hostStep_outRead_of_le (hcount ▸ hj)⟩

/-- Settles O8: in both run states the gate is closed. -/
theorem closedGateDropsWrites : Obligations.ClosedGateDropsWrites := by
  intro s num v k ch hrun
  have hg := gateOpen_eq_false_iff.2 hrun
  refine ⟨fun h0 => hostStep_regWrite_no_effect h0 (fun _ _ => .inr hg) v, ?_⟩
  rw [hostStep_bitWrite, if_neg (by simp [hg])]

/-! ### Who writes what -/

/-- R132: either answer to `OutRead` changes nothing else. -/
theorem exists_hostStep_outRead (j : Nat) (s : State) : ∃ r, hostStep (.outRead j) s = .next (s.withReply r) := by
  cases h : outByte s j with
  | none => exact ⟨.refused, by rw [hostStep, hostOutRead, h]⟩
  | some b => exact ⟨.byte b, by rw [hostStep, hostOutRead, h]⟩

/-- R125: a write to any register but the command port writes at most the configuration. -/
theorem exists_hostStep_regWrite {num : RegNumber} (h0 : num ≠ 0) (v : RegValue) (s : State) :
    ∃ cfg, hostStep (.regWrite num v) s = .next (s.withCfg cfg) := by
  cases hnum : regAt num with
  | none => exact ⟨s.cfg, hostStep_regWrite_of_unused hnum v s⟩
  | some r =>
    have hctrl : r ≠ .ctrl := by
      rintro rfl
      exact h0 (regAt_eq_some_iff.1 hnum)
    rw [hostStep_regWrite_of_regAt hnum hctrl]
    split_ifs
    · exact ⟨writeReg r v s.cfg, rfl⟩
    · exact ⟨s.cfg, rfl⟩

/-- R128: `BitWrite` writes at most `BITMEM`. -/
theorem exists_hostStep_bitWrite (k : Nat) (ch : Byte) (s : State) :
    ∃ mem, hostStep (.bitWrite k ch) s = .next (s.withBitmem mem) := by
  rw [hostStep_bitWrite]
  split_ifs
  · exact ⟨memWrite k ch s.bitmem, rfl⟩
  · exact ⟨s.bitmem, rfl⟩

/-- R41, R125 to R128, R132: an operation that is no command writes at most the configuration, `BITMEM` and the
answer. -/
theorem exists_hostStep_of_not_command {op : HostOp} (hop : ∀ v, op ≠ .regWrite 0 v) (s : State) :
    ∃ cfg mem r, hostStep op s = .next (((s.withCfg cfg).withBitmem mem).withReply r) := by
  cases op with
  | regWrite num v =>
    obtain ⟨cfg, h⟩ := exists_hostStep_regWrite (num := num) (by rintro rfl; exact hop v rfl) v s
    exact ⟨cfg, s.bitmem, s.reply, h⟩
  | regRead num => exact ⟨s.cfg, s.bitmem, .value (regRead s num), rfl⟩
  | bitWrite k ch =>
    obtain ⟨mem, h⟩ := exists_hostStep_bitWrite k ch s
    exact ⟨s.cfg, mem, s.reply, h⟩
  | outRead j =>
    obtain ⟨r, h⟩ := exists_hostStep_outRead j s
    exact ⟨s.cfg, s.bitmem, r, h⟩

/-- R129, R131: a host operation leaves `OUT` or empties it, and leaves the depth and the agenda. -/
theorem hostStep_out {op : HostOp} {s t : State} (h : hostStep op s = .next t) :
    (t.out = s.out ∨ t.out = []) ∧ t.bitmemDepth = s.bitmemDepth ∧ t.agenda = s.agenda := by
  obtain rfl | ⟨r, rfl⟩ | rfl | ⟨-, cfg, rfl⟩ | ⟨-, k, ch, -, rfl⟩ | ⟨-, -, rfl⟩ | ⟨-, c, -, -, rfl⟩ := hostStep_cases h
  all_goals simp

/-- Settles O52: the core by its frame, the host by its operations. -/
theorem whoWritesWhat : Obligations.WhoWritesWhat := by
  refine ⟨fun s t h => ?core, fun s t op h => ⟨fun hop => ?host, hostStep_out h⟩⟩
  case core =>
    have hframe : CoreFrame s t := h.elim coreStep_frame coreInstr_frame
    exact ⟨hframe.cfg, hframe.bitmem, hframe.bitmemDepth, hframe.reply, hframe.agenda, hframe.cause⟩
  case host =>
    obtain ⟨cfg, mem, r, he⟩ := exists_hostStep_of_not_command hop s
    obtain rfl := nextEq_iff.1 (he.symm.trans h)
    exact ⟨rfl, rfl, rfl, rfl, rfl, rfl⟩

/-! ### One step of the machine -/

/-- R127: a step out of `BUSY` is the core's, an answer to the host, or a reset. -/
theorem step_of_busy {s t : State} (hb : s.run = .busy) (h : step s = .next t) :
    CoreFrame (atTurn s) t ∨ (∃ r, t = (atTurn s).withReply r) ∨ t = resetState (atTurn s) := by
  obtain ⟨-, hwait, -⟩ | hcore | hfused | ⟨op, hop⟩ | hreset := step_cases h
  · exact absurd hb hwait
  · exact .inl (coreStep_frame hcore)
  · exact .inl (coreInstr_frame hfused)
  · exact .inr (hostStep_of_gateClosed (gateOpen_eq_false_iff.2 (.inl hb)) hop)
  · exact .inr (.inr hreset)

/-- Settles O53. -/
theorem runInputsDoNotChange : Obligations.RunInputsDoNotChange := by
  intro s t hb h
  obtain hframe | ⟨r, rfl⟩ | rfl := step_of_busy hb h
  · exact ⟨fun k => by rw [hframe.bitmem]; rfl, .inl hframe.cfg⟩
  · exact ⟨fun _ => rfl, .inl rfl⟩
  · exact ⟨fun _ => rfl, .inr rfl⟩

/-- Settles O54: after a reset the machine is neither `BUSY` nor `DONE`. -/
theorem outputOnlyGrowsDuringRun : Obligations.OutputOnlyGrowsDuringRun := by
  intro s t hb h hlive
  obtain hframe | ⟨r, rfl⟩ | rfl := step_of_busy hb h
  · exact hframe.out
  · exact ⟨[], (List.append_nil _).symm, rfl⟩
  · simp at hlive

/-- R133: staying is a move. -/
theorem runMoves_self (r : RunState) : runMoves r r = true := by
  cases r <;> rfl

/-- R133: the core goes on or ends the run. -/
theorem CoreFrame.runMoves {s t : State} (hb : s.run = .busy) (h : CoreFrame s t) : runMoves s.run t.run = true := by
  rcases h.run with e | e <;> rw [e, hb] <;> rfl

/-- R133: any state can be reset. -/
theorem runMoves_idle (r : RunState) : runMoves r .idle = true := by
  cases r <;> rfl

/-- R133: with the gate open a `START` is accepted or faults. -/
theorem runMoves_of_gateOpen {r : RunState} (hg : gateOpen r = true) :
    runMoves r .busy = true ∧ runMoves r .fault = true := by
  obtain rfl | rfl := gateOpen_eq_true_iff.1 hg <;> exact ⟨rfl, rfl⟩

/-- R133: every operation of the host makes a move of the run-state machine. -/
theorem hostStep_runMoves {op : HostOp} {s t : State} (h : hostStep op s = .next t) : runMoves s.run t.run = true := by
  obtain rfl | ⟨r, rfl⟩ | rfl | ⟨-, cfg, rfl⟩ | ⟨-, k, ch, -, rfl⟩ | ⟨hg, -, rfl⟩ | ⟨hg, c, -, -, rfl⟩ :=
    hostStep_cases h
  · exact runMoves_self _
  · exact runMoves_self _
  · exact runMoves_idle _
  · exact runMoves_self _
  · exact runMoves_self _
  · exact (runMoves_of_gateOpen hg).1
  · exact (runMoves_of_gateOpen hg).2

/-- Settles O55, by who moves. -/
theorem runStateMachine : Obligations.RunStateMachine := by
  intro s t h
  obtain ⟨-, -, rfl⟩ | hcore | hfused | ⟨op, hop⟩ | rfl := step_cases h
  · exact runMoves_self _
  · exact CoreFrame.runMoves (s := atTurn s) (coreStep_cases hcore).1 (coreStep_frame hcore)
  · exact CoreFrame.runMoves (s := atTurn s) (coreInstr_cases hfused).1 (coreInstr_frame hfused)
  · exact hostStep_runMoves (s := atTurn s) hop
  · exact runMoves_idle _

/-- Settles O56: the core has no step in `FAULT`, and the gate is closed. -/
theorem faultIsLeftOnlyByReset : Obligations.FaultIsLeftOnlyByReset := by
  intro s t hf h
  have hfault : (atTurn s).run = .fault := hf
  have hnotBusy : (atTurn s).run ≠ .busy := by rw [hfault]; decide
  obtain ⟨-, -, rfl⟩ | hcore | hfused | ⟨op, hop⟩ | rfl := step_cases h
  · exact .inr rfl
  · exact absurd (coreStep_cases hcore).1 hnotBusy
  · exact absurd (coreInstr_cases hfused).1 hnotBusy
  · obtain ⟨r, rfl⟩ | rfl := hostStep_of_gateClosed (gateOpen_eq_false_iff.2 (.inr hfault)) hop
    · exact .inr rfl
    · exact .inl rfl
  · exact .inl rfl

/-! ### When a step stops -/

/-- R112: in `BUSY` a fused turn answers a next state. -/
theorem exists_coreInstr {s : State} (hb : s.run = .busy) : ∃ t, coreInstr s = .next t := by
  by_cases hidx : s.seg.idx = 0
  case neg =>
    rw [coreInstr_of_inside hb hidx]
    exact exists_advanceStep _
  by_cases hsym : (s.pc.ph = .header ∨ s.pc.ph = .block) ∧ s.pc.seg = 0
  case pos =>
    rw [coreInstr_of_fetchInstr hb (fetchInstr_of_symbol hidx hsym.1 hsym.2), exec_decodeSym]
    exact exists_advanceStep _
  case neg =>
    rw [coreInstr_of_fetchInstr hb (fetchInstr_of_segment hidx hsym), exec_decodeSeg]
    exact exists_advanceStep _

/-- R129: `START` always answers a next state. -/
theorem exists_execStart (s : State) : ∃ t, execStart s = .next t := by
  obtain ⟨-, e⟩ | ⟨-, -, e⟩ | ⟨-, c, -, -, e⟩ := execStart_cases s
  all_goals exact ⟨_, e⟩

/-- R125 to R132: so does every operation of the host. -/
theorem exists_hostStep (op : HostOp) (s : State) : ∃ t, hostStep op s = .next t := by
  by_cases hop : ∀ v, op ≠ .regWrite 0 v
  case pos =>
    obtain ⟨cfg, mem, r, h⟩ := exists_hostStep_of_not_command hop s
    exact ⟨_, h⟩
  case neg =>
    obtain ⟨v, rfl⟩ := not_forall_not.1 hop
    rw [commandWritesDecode]
    split_ifs
    · exact ⟨_, rfl⟩
    · exact exists_execStart s
    · exact ⟨_, rfl⟩

/-- R112: out of `BUSY` the core has neither kind of step. -/
theorem core_stops_of_not_busy {s : State} (hb : s.run ≠ .busy) :
    coreStep s = .fault .noEnabledStep ∧ coreInstr s = .fault .noEnabledStep :=
  ⟨if_neg hb, if_neg hb⟩

/-- R152: a silent host is always answered. -/
theorem exists_silentHost (s : State) : ∃ t, silentHost s = .next t := by
  unfold silentHost
  split_ifs with hb
  · exact exists_coreStep hb
  · exact ⟨s, rfl⟩

/-- Settles O57, turn by turn. -/
theorem stepStopsOnlyOnDisabledCoreTurn : Obligations.StepStopsOnlyOnDisabledCoreTurn := by
  intro s
  cases ha : s.agenda with
  | nil =>
    left
    rw [step, ha]
    exact exists_silentHost s
  | cons a rest =>
    simp only [step_of_agenda_cons ha]
    cases a with
    | coreStep =>
      by_cases hb : s.run = .busy
      · exact .inl (exists_coreStep hb)
      · exact .inr ⟨(core_stops_of_not_busy (s := s.withAgenda rest) hb).1, hb, rest, .inl rfl⟩
    | coreInstr =>
      by_cases hb : s.run = .busy
      · exact .inl (exists_coreInstr hb)
      · exact .inr ⟨(core_stops_of_not_busy (s := s.withAgenda rest) hb).2, hb, rest, .inr rfl⟩
    | host op => exact .inl (exists_hostStep op _)
    | hardwareReset => exact .inl ⟨_, rfl⟩

/-- Settles O58: both answer the reset state. -/
theorem hardwareResetEqualsCommand : Obligations.HardwareResetEqualsCommand :=
  fun _ _ _ ha => step_of_agenda_cons ha

end Sys2Proof.Machine
